-- ==== Sys2Proof/Word.lean ====
section
/-! DEFINITION. The word types of the block, one per width the spec names (00_scope.md R4, R6). -/

namespace Sys2Proof

/-- A byte: a memory cell, a general register, a timer, the immediate `NN`. -/
abbrev Byte := BitVec 8

/-- A 12-bit address: `I`, `PC`, a stack entry, the immediate `NNN`. -/
abbrev Addr := BitVec 12

/-- A 4-bit value: a register index `X` or `Y`, a pad index, the stack pointer, the immediate `N`. -/
abbrev Nibble := BitVec 4

/-- An instruction word, bit 15 the most significant (00_scope.md R6). -/
abbrev InstrWord := BitVec 16

end Sys2Proof
end

