-- ==== Sys2Proof/Config.lean ====
section
/-! DEFINITION. The parameters of 00_scope.md R4 that the machine reads, and the two open values: what the host
presents at the random port (42_immediate.md R113, 50_host_interface.md R186), of which nothing is known. -/

namespace Sys2Proof

/-- `MEM_SIZE`: addresses 0x000 to 0xFFF. -/
def Config.memSize : Nat := 4096

/-- `PROG_BASE`: where the image is loaded and execution starts. -/
def Config.progBase : Nat := 0x200

/-- `MAX_IMAGE`: 4096 - 0x200 bytes. -/
def Config.maxImage : Nat := 3584

/-- `GLYPH_BYTES`: rows of one font glyph. -/
def Config.glyphBytes : Nat := 5

/-- `FONT_BASE`: where the glyph of digit 0 starts. -/
def Config.fontBase : Nat := 0x000

/-- The two legal collision policies of `DRW` (44_display.md R143). -/
inductive CollisionPolicy where
  /-- VF is 1 if some cell went from 1 to 0, else 0: the spec's choice (D9). -/
  | canonical
  /-- VF is always 0: the alternative the source allows. -/
  | alwaysZero
  deriving DecidableEq, Repr

/-- `COLLISION_POLICY` of this block (D9). -/
def Config.collisionPolicy : CollisionPolicy := .canonical

/-- FREE VALUE. The random byte the host presents right after power-on. No body: no proof can see it (log entry 3). -/
opaque Config.rndFirst : Byte

/-- FREE VALUE. What the host presents at the random port after `n` bytes have been drawn: some byte, or none
(`rnd_valid = 0`). No body: no two draws can be shown equal or different (log entry 3). -/
opaque Config.rndInput : Nat → Option Byte

end Sys2Proof
end

