-- ==== Sys2Proof/Machine/State.lean ====
section
/-! DEFINITION. The state aggregate of 10_state.md R10, and its value after reset (10_state.md R26). -/

namespace Sys2Proof.Machine

/-- The fault causes of 60_exceptions.md R201, in the order of their codes 1 to 7. The block TAKES a fault: the step
answers a next state with the cause in `State.fault` (R210), so no step of this model stops with one. All are safe:
they are the spec's own outcomes. -/
inductive Fault where
  /-- Code 1, raised by any Step at `PC = 0xFFF` (R202). Safe. -/
  | fetchRange
  /-- Code 2, raised by `DRW`, `LD B,Vx`, `LD [I],Vx`, `LD Vx,[I]` on a data address above 0xFFF (R203). Safe. -/
  | memRange
  /-- Code 3, raised by `CALL` with `SP = 15` (R204). Safe. -/
  | stackOverflow
  /-- Code 4, raised by `RET` with `SP = 0` (R205). Safe. -/
  | stackUnderflow
  /-- Code 5, raised by `SKP` and `SKNP` with `V[X] > 15` (R206). Safe. -/
  | keyIndex
  /-- Code 6, raised by `RND` when the host presents no byte (R207). Safe. -/
  | entropy
  /-- Code 7, raised by Reset with an image above 3584 bytes (R208). Safe. -/
  | loadError
  deriving DecidableEq, Repr

/-- Why the model would have no meaning for an instruction. -/
inductive Refusal where
  /-- The instruction has no meaning yet; would stand in an arm of `exec`. Every arm has a meaning, so nothing raises
  it. Safe. -/
  | notModelled (mnemonic : String)
  deriving DecidableEq, Repr

/-- The display buffer: 32 rows of 64 cells, true for a lit cell (10_state.md R18). -/
abbrev Display := Vector (Vector Bool 64) 32

/-- Everything the spec gives the block (10_state.md R10), and the two fields of the random port. -/
structure State where
  /-- `Mem`: the cells that differ from the reset content, addresses rising (R17; `Memory.Wf`). -/
  mem : List Host.Cell
  /-- `V[0]` to `V[15]`; `V[15]` is VF (R11, R12). -/
  v : Vector Byte 16
  /-- `I` (R13). -/
  i : Addr
  /-- `PC` (R14). -/
  pc : Addr
  /-- `Stack[0]` to `Stack[15]` (R15). -/
  stack : Vector Addr 16
  /-- `SP` (R16). -/
  sp : Nibble
  /-- `Disp` (R18). -/
  disp : Display
  /-- `DT` (R19). -/
  dt : Byte
  /-- `ST` (R20). -/
  st : Byte
  /-- `Key[0]` to `Key[15]`, true for a pressed key (R21). -/
  key : Vector Bool 16
  /-- `Wait`, the wait-for-key latch (R22). -/
  wait : Option Nibble
  /-- `Fault`, the cause recorded, none for code 0 (R23). -/
  fault : Option Fault
  /-- The model's own field: what the host presents at the random port, none for `rnd_valid = 0`
  (50_host_interface.md R186, R189; log entry 3). -/
  rndIn : Option Byte
  /-- The model's own field: how many random bytes have been drawn (log entry 3). -/
  rndDraws : Nat
  deriving DecidableEq, Repr

/-- The machine after Reset with an empty image (10_state.md R26, R31). -/
def State.reset : State where
  mem := []
  v := Vector.replicate 16 0
  i := 0x000
  pc := 0x200
  stack := Vector.replicate 16 0
  sp := 0
  disp := Vector.replicate 32 (Vector.replicate 64 false)
  dt := 0
  st := 0
  key := Vector.replicate 16 false
  wait := none
  fault := none
  rndIn := some Config.rndFirst
  rndDraws := 0

end Sys2Proof.Machine
end

