-- ==== Sys2Proof/Machine/Memory.lean ====
section
/-! DEFINITION. Memory as a canonical list of cells: the font, what an unlisted address reads as, read and write. -/

namespace Sys2Proof.Machine

/-- The 80 bytes of the font, glyph by glyph (20_memory.md R42; the values are the spec's decision D29, log entry 2). -/
def fontBytes : List Byte :=
  [0xF0, 0x90, 0x90, 0x90, 0xF0,  0x20, 0x60, 0x20, 0x20, 0x70,  0xF0, 0x10, 0xF0, 0x80, 0xF0,
   0xF0, 0x10, 0xF0, 0x10, 0xF0,  0x90, 0x90, 0xF0, 0x10, 0x10,  0xF0, 0x80, 0xF0, 0x10, 0xF0] ++
  [0xF0, 0x80, 0xF0, 0x90, 0xF0,  0xF0, 0x10, 0x20, 0x40, 0x40,  0xF0, 0x90, 0xF0, 0x90, 0xF0,
   0xF0, 0x90, 0xF0, 0x10, 0xF0,  0xF0, 0x90, 0xF0, 0x90, 0x90,  0xE0, 0x90, 0xE0, 0x90, 0xE0] ++
  [0xF0, 0x80, 0x80, 0x80, 0xF0,  0xE0, 0x90, 0x90, 0x90, 0xE0,  0xF0, 0x80, 0xF0, 0x80, 0xF0,
   0xF0, 0x80, 0xF0, 0x80, 0x80]

/-- What an address reads as when nothing is listed for it: the content after Reset with an empty image, the font at
[0, 80) and zero elsewhere (10_state.md R26, 20_memory.md R41; log entry 1). -/
def Memory.base (a : Nat) : Byte :=
  fontBytes.getD (a - Config.fontBase) 0

/-- The byte at an address (20_memory.md R43). -/
def Memory.read : List Host.Cell → Nat → Byte
  | [], a => Memory.base a
  | (k, b) :: m, a => if k = a then b else Memory.read m a

/-- Take an address off the list. -/
def Memory.erase : List Host.Cell → Nat → List Host.Cell
  | [], _ => []
  | (k, b) :: m, a => if a < k then (k, b) :: m else if a = k then m else (k, b) :: Memory.erase m a

/-- List an address, in its place. -/
def Memory.insert : List Host.Cell → Nat → Byte → List Host.Cell
  | [], a, v => [(a, v)]
  | (k, b) :: m, a, v =>
    if a < k then (a, v) :: (k, b) :: m else if a = k then (a, v) :: m else (k, b) :: Memory.insert m a v

/-- Store a byte (20_memory.md R43). An address above 0xFFF has no cell and stores nothing: every instruction checks
its addresses first (`State.guardRange`). -/
def Memory.write (m : List Host.Cell) (a : Nat) (v : Byte) : List Host.Cell :=
  if a < Config.memSize then
    if v = Memory.base a then Memory.erase m a else Memory.insert m a v
  else m

/-- Store bytes at rising addresses. -/
def Memory.writeBytes (m : List Host.Cell) (a : Nat) : List Byte → List Host.Cell
  | [] => m
  | b :: bs => Memory.write (Memory.writeBytes m (a + 1) bs) a b

/-- The canonical form: addresses strictly rise, each has a cell, and none reads as it would unlisted. -/
abbrev Memory.Wf (m : List Host.Cell) : Prop :=
  m.Pairwise (fun c d => c.1 < d.1) ∧ ∀ c ∈ m, c.1 < Config.memSize ∧ c.2 ≠ Memory.base c.1

end Sys2Proof.Machine
end

