-- ==== Sys2Proof/Machine/Ops.lean ====
section
/-! DEFINITION. The named operations over the state: registers, stack, keys, display cells, memory, the ways an
instruction ends, and taking a fault. -/

namespace Sys2Proof.Machine

/-- What a step or a meaning answers. -/
abbrev Result := Host.Outcome State Fault Refusal

/-- `V[x]` (00_scope.md R8). -/
def State.getV (s : State) (x : Nibble) : Byte := s.v[x.toNat]'x.isLt

/-- `V[x] <- b`. -/
def State.setV (s : State) (x : Nibble) (b : Byte) : State := { s with v := s.v.set x.toNat b x.isLt }

/-- `Stack[k]`. -/
def State.getStack (s : State) (k : Nibble) : Addr := s.stack[k.toNat]'k.isLt

/-- `Stack[k] <- a`. -/
def State.setStack (s : State) (k : Nibble) (a : Addr) : State := { s with stack := s.stack.set k.toNat a k.isLt }

/-- `Key[k]`. -/
def State.getKey (s : State) (k : Nibble) : Bool := s.key[k.toNat]'k.isLt

/-- `Key[k] <- b`. -/
def State.setKey (s : State) (k : Nibble) (b : Bool) : State := { s with key := s.key.set k.toNat b k.isLt }

/-- The byte of memory at an address. -/
def State.byte (s : State) (a : Nat) : Byte := Memory.read s.mem a

/-- Store a byte in memory. -/
def State.setByte (s : State) (a : Nat) (b : Byte) : State := { s with mem := Memory.write s.mem a b }

/-- `Disp[x mod 64][y mod 32]` (44_display.md R142: both coordinates wrap). -/
def dispGet (d : Display) (x y : Nat) : Bool :=
  (d[y % 32]'(Nat.mod_lt _ (by decide)))[x % 64]'(Nat.mod_lt _ (by decide))

/-- `Disp[x mod 64][y mod 32] <- b`. -/
def dispSet (d : Display) (x y : Nat) (b : Bool) : Display :=
  d.set (y % 32) ((d[y % 32]'(Nat.mod_lt _ (by decide))).set (x % 64) b (Nat.mod_lt _ (by decide)))
    (Nat.mod_lt _ (by decide))

/-- All 2048 cells 0 (44_display.md R140). -/
def dispClear : Display := Vector.replicate 32 (Vector.replicate 64 false)

/-- `raise c`: THE ONE WAY A FAULT IS TAKEN. The cause is recorded, nothing else changes, and `PC` keeps the address of
the faulting instruction (60_exceptions.md R210). There is no return from a fault: only Reset leaves the mode (R211,
`State.powerUp`). -/
def State.raise (s : State) (c : Fault) : State := { s with fault := some c }

/-- The default end of an instruction: `PC <- (PC + 2) mod 4096` (40_flow.md R80). -/
def State.advance (s : State) : State := { s with pc := s.pc + 2 }

/-- `pc <- t` (00_scope.md R8). -/
def State.jump (s : State) (t : Addr) : State := { s with pc := t }

/-- `if c then skip`: a taken skip goes to `(PC + 4) mod 4096` (41_skip.md R104). -/
def State.skipIf (s : State) (c : Bool) : State := if c then s.jump (s.pc + 4) else s.advance

/-- A no-operation: only the default advance (30_encoding.md R70). -/
def State.noOperation (s : State) : Result := .next s.advance

/-- The range check of an instruction whose data addresses run from `I` to `I + k`: MEM_RANGE before any effect if the
last is above 0xFFF (20_memory.md R43). The address is not reduced. -/
def State.guardRange (s : State) (k : Nat) (go : Result) : Result :=
  if s.i.toNat + k > 0xFFF then .next (s.raise .memRange) else go

/-- The three modes, a function of `Fault` and `Wait` (10_state.md R24). -/
inductive Mode where
  | running
  | awaitingKey (r : Nibble)
  | faulted (c : Fault)
  deriving DecidableEq, Repr

/-- The mode of the block (10_state.md R24). -/
def State.mode (s : State) : Mode :=
  match s.fault with
  | some c => .faulted c
  | none =>
    match s.wait with
    | some r => .awaitingKey r
    | none => .running

/-- The cause codes (60_exceptions.md R201). -/
def Fault.code : Fault → BitVec 3
  | .fetchRange => 1
  | .memRange => 2
  | .stackOverflow => 3
  | .stackUnderflow => 4
  | .keyIndex => 5
  | .entropy => 6
  | .loadError => 7

/-- The host presents a byte, or none, at the random port (50_host_interface.md R186). -/
def State.present (s : State) (r : Option Byte) : State := { s with rndIn := r }

/-- A byte has been drawn: what the port presents next is not known (42_immediate.md R113; log entry 3). -/
def State.drawn (s : State) : State :=
  { s with rndIn := Config.rndInput s.rndDraws, rndDraws := s.rndDraws + 1 }

/-- Continue from a next state. -/
def Result.andThen (r : Result) (f : State → Result) : Result :=
  match r with
  | .next s => f s
  | .fault e => .fault e
  | .refused e => .refused e

end Sys2Proof.Machine
end

