-- ==== Sys2Proof/Machine/Operands.lean ====
section
/-! DEFINITION. The computed operands: jump targets, index arithmetic, glyph addresses, sprite rows, decimal digits. -/

namespace Sys2Proof.Machine

/-- The index of the flag register VF (10_state.md R12). -/
def vfIndex : Nibble := 0xF

/-- A byte as a 12-bit value, `zext_12` (00_scope.md R7). -/
def zext12 (b : Byte) : Addr := b.setWidth 12

/-- The return address a `CALL` pushes: `(PC + 2) mod 4096` (40_flow.md R84). -/
def State.returnAddress (s : State) : Addr := s.pc + 2

/-- `(NNN + V[0]) mod 4096` (40_flow.md R85). -/
def State.offsetTarget (s : State) (nnn : Addr) : Addr := nnn + zext12 (s.getV 0)

/-- `(I + V[X]) mod 4096` (47_index_memory.md R170). -/
def State.indexPlus (s : State) (x : Nibble) : Addr := s.i + zext12 (s.getV x)

/-- The address of the glyph of the low nibble of a byte: 5 times the digit from the font base
(47_index_memory.md R171). -/
def glyphAddress (b : Byte) : Addr := BitVec.ofNat 12 (Config.fontBase + Config.glyphBytes * (b.toNat % 16))

/-- The effective address `I + k`, not reduced (20_memory.md R43, 47_index_memory.md R176). -/
def State.dataAddress (s : State) (k : Nat) : Nat := s.i.toNat + k

/-- The `n` sprite bytes at `I`, `I + 1`, ... (44_display.md R141). -/
def State.spriteRows (s : State) (n : Nat) : List Byte := (List.range n).map fun r => s.byte (s.dataAddress r)

/-- Where a sprite starts: `V[X] mod 64` and `V[Y] mod 32` (44_display.md R141). -/
def State.spriteX (s : State) (x : Nibble) : Nat := (s.getV x).toNat % 64
def State.spriteY (s : State) (y : Nibble) : Nat := (s.getV y).toNat % 32

/-- The decimal digits of a byte (47_index_memory.md R172). -/
def hundreds (b : Byte) : Byte := BitVec.ofNat 8 (b.toNat / 100)
def tens (b : Byte) : Byte := BitVec.ofNat 8 (b.toNat / 10 % 10)
def ones (b : Byte) : Byte := BitVec.ofNat 8 (b.toNat % 10)

/-- The pad index in `V[X]`, once it is known to be at most 15 (45_keys.md R150). -/
def padIndex (b : Byte) : Nibble := b.setWidth 4

/-- Store `V[0]`, ..., `V[n-1]` at `base`, `base + 1`, ... (47_index_memory.md R173). -/
def State.dumpTo (s : State) (base : Nat) : Nat → State
  | 0 => s
  | k + 1 => (s.dumpTo base k).setByte (base + k) (s.getV (BitVec.ofNat 4 k))

/-- Load `V[0]`, ..., `V[n-1]` from `base`, `base + 1`, ... (47_index_memory.md R174). -/
def State.loadFrom (s : State) (base : Nat) : Nat → State
  | 0 => s
  | k + 1 => (s.loadFrom base k).setV (BitVec.ofNat 4 k) (s.byte (base + k))

/-- `I <- (I + X + 1) mod 4096` of register dump and load (47_index_memory.md R173, R174). -/
def State.bumpIndex (s : State) (x : Nibble) : State := { s with i := s.i + x.setWidth 12 + 1 }

end Sys2Proof.Machine
end

