-- ==== Sys2Proof/Machine/Flags.lean ====
section
/-! DEFINITION. Every value the instructions write to VF (10_state.md R12), and the order of the result and flag
writes. -/

namespace Sys2Proof.Machine

/-- A flag as the byte VF receives. -/
def flagByte (c : Bool) : Byte := if c then 1 else 0

/-- `ADD Vx, Vy`: 1 if the 8-bit sum overflows (43_alu.md R125). -/
def carryOut (a b : Byte) : Byte := flagByte (decide (a.toNat + b.toNat > 255))

/-- `SUB` and `SUBN`: 1 if the minuend is not below the subtrahend (43_alu.md R126, R128). -/
def notBorrow (minuend subtrahend : Byte) : Byte := flagByte (decide (minuend.toNat ≥ subtrahend.toNat))

/-- `SHR`: bit 0 of the value before the shift (43_alu.md R127). -/
def shiftedOutRight (b : Byte) : Byte := flagByte (b.getLsbD 0)

/-- `SHL`: bit 7 of the value before the shift (43_alu.md R129). -/
def shiftedOutLeft (b : Byte) : Byte := flagByte (b.getLsbD 7)

/-- `DRW`: by the collision policy (44_display.md R143). -/
def collisionFlag (policy : CollisionPolicy) (collided : Bool) : Byte :=
  match policy with
  | .canonical => flagByte collided
  | .alwaysZero => 0

/-- Write the result to `V[X]` and then the flag to VF, so that the flag wins when `X = 0xF` (43_alu.md R120). -/
def State.setResultFlag (s : State) (x : Nibble) (result flag : Byte) : State :=
  (s.setV x result).setV vfIndex flag

end Sys2Proof.Machine
end

