-- ==== Sys2Proof/Machine/Alu.lean ====
section
/-! DEFINITION. The register-to-register group, family 8 (43_alu.md). Both operands are read before any write (R120). -/

namespace Sys2Proof.Machine

/-- 43_alu.md R121. -/
def execLdReg (x y : Nibble) (s : State) : Result := .next (s.setV x (s.getV y)).advance

/-- 43_alu.md R122. -/
def execOrReg (x y : Nibble) (s : State) : Result :=
  .next (s.setResultFlag x (s.getV x ||| s.getV y) 0).advance

/-- 43_alu.md R123. -/
def execAndReg (x y : Nibble) (s : State) : Result :=
  .next (s.setResultFlag x (s.getV x &&& s.getV y) 0).advance

/-- 43_alu.md R124. -/
def execXorReg (x y : Nibble) (s : State) : Result :=
  .next (s.setResultFlag x (s.getV x ^^^ s.getV y) 0).advance

/-- 43_alu.md R125. -/
def execAddReg (x y : Nibble) (s : State) : Result :=
  .next (s.setResultFlag x (s.getV x + s.getV y) (carryOut (s.getV x) (s.getV y))).advance

/-- 43_alu.md R126: `V[X] - V[Y]`. -/
def execSubReg (x y : Nibble) (s : State) : Result :=
  .next (s.setResultFlag x (s.getV x - s.getV y) (notBorrow (s.getV x) (s.getV y))).advance

/-- 43_alu.md R127: the value shifted is `V[Y]`. -/
def execShrReg (x y : Nibble) (s : State) : Result :=
  .next (s.setResultFlag x (s.getV y >>> 1) (shiftedOutRight (s.getV y))).advance

/-- 43_alu.md R128: `V[Y] - V[X]`. -/
def execSubnReg (x y : Nibble) (s : State) : Result :=
  .next (s.setResultFlag x (s.getV y - s.getV x) (notBorrow (s.getV y) (s.getV x))).advance

/-- 43_alu.md R129: the value shifted is `V[Y]`. -/
def execShlReg (x y : Nibble) (s : State) : Result :=
  .next (s.setResultFlag x (s.getV y <<< 1) (shiftedOutLeft (s.getV y))).advance

/-- 43_alu.md R130. -/
def execNop8 (_x _y _n : Nibble) (s : State) : Result := s.noOperation

end Sys2Proof.Machine
end

