-- ==== Sys2Proof/Machine/Flow.lean ====
section
/-! DEFINITION. Control flow: SYS, RET, JP, CALL, JP V0 (40_flow.md). -/

namespace Sys2Proof.Machine

/-- 40_flow.md R81. -/
def execSys (_nnn : Addr) (s : State) : Result := s.noOperation

/-- 40_flow.md R82. -/
def execRet (s : State) : Result :=
  if s.sp = 0 then .next (s.raise .stackUnderflow)
  else .next { s.jump (s.getStack s.sp) with sp := s.sp - 1 }

/-- 40_flow.md R83. -/
def execJp (nnn : Addr) (s : State) : Result := .next (s.jump nnn)

/-- 40_flow.md R84: pre-increment, push the return address, jump. -/
def execCall (nnn : Addr) (s : State) : Result :=
  if s.sp = 15 then .next (s.raise .stackOverflow)
  else .next ({ s.setStack (s.sp + 1) s.returnAddress with sp := s.sp + 1 }.jump nnn)

/-- 40_flow.md R85. -/
def execJpV0 (nnn : Addr) (s : State) : Result := .next (s.jump (s.offsetTarget nnn))

end Sys2Proof.Machine
end

