-- ==== Sys2Proof/Machine/Immediate.lean ====
section
/-! DEFINITION. Immediate loads, add immediate, set index, random byte (42_immediate.md). -/

namespace Sys2Proof.Machine

/-- 42_immediate.md R110. -/
def execLdImm (x : Nibble) (nn : Byte) (s : State) : Result := .next (s.setV x nn).advance

/-- 42_immediate.md R111: no flag. -/
def execAddImm (x : Nibble) (nn : Byte) (s : State) : Result := .next (s.setV x (s.getV x + nn)).advance

/-- 42_immediate.md R112. -/
def execLdI (nnn : Addr) (s : State) : Result := .next { s with i := nnn }.advance

/-- 42_immediate.md R113: one byte is drawn, or ENTROPY is raised. -/
def execRnd (x : Nibble) (nn : Byte) (s : State) : Result :=
  match s.rndIn with
  | none => .next (s.raise .entropy)
  | some r => .next ((s.setV x (r &&& nn)).drawn).advance

end Sys2Proof.Machine
end

