-- ==== Sys2Proof/Machine/IndexMemory.lean ====
section
/-! DEFINITION. The index register and the memory instructions (47_index_memory.md). -/

namespace Sys2Proof.Machine

/-- 47_index_memory.md R170: no flag. -/
def execAddI (x : Nibble) (s : State) : Result := .next { s with i := s.indexPlus x }.advance

/-- 47_index_memory.md R171. -/
def execLdF (x : Nibble) (s : State) : Result := .next { s with i := glyphAddress (s.getV x) }.advance

/-- 47_index_memory.md R172: hundreds, tens, ones at `I`, `I + 1`, `I + 2`. -/
def execLdB (x : Nibble) (s : State) : Result :=
  s.guardRange 2 (.next (((s.setByte (s.dataAddress 0) (hundreds (s.getV x))).setByte
    (s.dataAddress 1) (tens (s.getV x))).setByte (s.dataAddress 2) (ones (s.getV x))).advance)

/-- 47_index_memory.md R173. -/
def execDump (x : Nibble) (s : State) : Result :=
  s.guardRange x.toNat (.next ((s.dumpTo (s.dataAddress 0) (x.toNat + 1)).bumpIndex x).advance)

/-- 47_index_memory.md R174. -/
def execLoad (x : Nibble) (s : State) : Result :=
  s.guardRange x.toNat (.next ((s.loadFrom (s.dataAddress 0) (x.toNat + 1)).bumpIndex x).advance)

/-- 47_index_memory.md R175: `V[X]` is not read. -/
def execNopF (_x : Nibble) (_nn : Byte) (s : State) : Result := s.noOperation

end Sys2Proof.Machine
end

