-- ==== Sys2Proof/Machine/Keys.lean ====
section
/-! DEFINITION. The key instructions and the wait-for-key latch (45_keys.md). -/

namespace Sys2Proof.Machine

/-- The index check both key skips share: KEY_INDEX when `V[X] > 15` (45_keys.md R150, R151). -/
def State.withKey (s : State) (x : Nibble) (go : Bool → State) : Result :=
  if (s.getV x).toNat > 15 then .next (s.raise .keyIndex) else .next (go (s.getKey (padIndex (s.getV x))))

/-- 45_keys.md R150. -/
def execSkp (x : Nibble) (s : State) : Result := s.withKey x fun down => s.skipIf down

/-- 45_keys.md R151. -/
def execSknp (x : Nibble) (s : State) : Result := s.withKey x fun down => s.skipIf (!down)

/-- 45_keys.md R152: set the latch and complete; the key release does the rest. -/
def execLdVxK (x : Nibble) (s : State) : Result := .next { s with wait := some x }.advance

/-- 45_keys.md R153: `V[X]` is not read. -/
def execNopE (_x : Nibble) (_nn : Byte) (s : State) : Result := s.noOperation

end Sys2Proof.Machine
end

