-- ==== Sys2Proof/Machine/Screen.lean ====
section
/-! DEFINITION. The display instructions and the XOR sprite blit (44_display.md), loop by loop as R141 writes it. -/

namespace Sys2Proof.Machine

/-- The display being drawn on, and whether a cell has gone from 1 to 0 so far. -/
abbrev Canvas := Display × Bool

/-- One sprite bit on one cell: 1 flips it, 0 leaves it (44_display.md R141, R142). -/
def blitBit (c : Canvas) (x y : Nat) (bit : Bool) : Canvas :=
  if bit then (dispSet c.1 x y (!dispGet c.1 x y), c.2 || dispGet c.1 x y) else c

/-- One sprite byte: 8 adjacent pixels, most significant bit first, each column modulo 64. -/
def blitRow (c : Canvas) (x0 y : Nat) (b : Byte) : Canvas :=
  (List.range 8).foldl (fun acc col => blitBit acc (x0 + col) y (b.getLsbD (7 - col))) c

/-- All sprite bytes, on successive rows modulo 32. -/
def blitRows (c : Canvas) (x0 y0 : Nat) : List Byte → Canvas
  | [] => c
  | b :: bs => blitRows (blitRow c x0 y0 b) x0 (y0 + 1) bs

/-- 44_display.md R140. -/
def execCls (s : State) : Result := .next { s with disp := dispClear }.advance

/-- What `DRW` leaves on the display, and whether it collided; coordinates and rows are read first. -/
def State.spriteCanvas (s : State) (x y n : Nibble) : Canvas :=
  blitRows (s.disp, false) (s.spriteX x) (s.spriteY y) (s.spriteRows n.toNat)

/-- `DRW` once its rows are known to lie in memory: draw, then write VF last (44_display.md R141). -/
def State.drawSprite (s : State) (x y n : Nibble) : Result :=
  .next ({ s with disp := (s.spriteCanvas x y n).1 }.setV vfIndex
    (collisionFlag Config.collisionPolicy (s.spriteCanvas x y n).2)).advance

/-- 44_display.md R141: no range check when `N = 0`, which reads nothing. -/
def execDrw (x y n : Nibble) (s : State) : Result :=
  if n = 0 then s.drawSprite x y n else s.guardRange (n.toNat - 1) (s.drawSprite x y n)

end Sys2Proof.Machine
end

