-- ==== Sys2Proof/Machine/Skip.lean ====
section
/-! DEFINITION. Conditional skips on registers and immediates (41_skip.md). -/

namespace Sys2Proof.Machine

/-- 41_skip.md R100. -/
def execSeImm (x : Nibble) (nn : Byte) (s : State) : Result := .next (s.skipIf (s.getV x == nn))

/-- 41_skip.md R101. -/
def execSneImm (x : Nibble) (nn : Byte) (s : State) : Result := .next (s.skipIf (s.getV x != nn))

/-- 41_skip.md R102; the low nibble of the word is not decoded. -/
def execSeReg (x y _n : Nibble) (s : State) : Result := .next (s.skipIf (s.getV x == s.getV y))

/-- 41_skip.md R103; the low nibble of the word is not decoded. -/
def execSneReg (x y _n : Nibble) (s : State) : Result := .next (s.skipIf (s.getV x != s.getV y))

end Sys2Proof.Machine
end

