-- ==== Sys2Proof/Machine/Timers.lean ====
section
/-! DEFINITION. The timer instructions (46_timers.md). -/

namespace Sys2Proof.Machine

/-- 46_timers.md R160. -/
def execLdVxDt (x : Nibble) (s : State) : Result := .next (s.setV x s.dt).advance

/-- 46_timers.md R161. -/
def execLdDtVx (x : Nibble) (s : State) : Result := .next { s with dt := s.getV x }.advance

/-- 46_timers.md R162. -/
def execLdStVx (x : Nibble) (s : State) : Result := .next { s with st := s.getV x }.advance

end Sys2Proof.Machine
end

