-- ==== Sys2Proof/Syntax.lean ====
section
/-! DEFINITION. The instructions: one constructor per row of spec/opcode_table.json, in the table's order, holding
every bit of the word that the row does not fix (also those an instruction ignores), so that nothing is dropped. -/

namespace Sys2Proof

inductive Instr where
  /-- `00E0` Clear display (44_display.md R140). -/
  | cls
  /-- `00EE` Return (40_flow.md R82). -/
  | ret
  /-- `0NNN` other than the two words above: no-operation (40_flow.md R81). -/
  | sys (nnn : Addr)
  /-- `1NNN` Jump (40_flow.md R83). -/
  | jp (nnn : Addr)
  /-- `2NNN` Call (40_flow.md R84). -/
  | call (nnn : Addr)
  /-- `3XNN` Skip if `V[X] = NN` (41_skip.md R100). -/
  | seImm (x : Nibble) (nn : Byte)
  /-- `4XNN` Skip if `V[X] ≠ NN` (41_skip.md R101). -/
  | sneImm (x : Nibble) (nn : Byte)
  /-- `5XY_` Skip if `V[X] = V[Y]` (41_skip.md R102); the low nibble `n` is ignored (30_encoding.md R69). -/
  | seReg (x y n : Nibble)
  /-- `6XNN` Load immediate (42_immediate.md R110). -/
  | ldImm (x : Nibble) (nn : Byte)
  /-- `7XNN` Add immediate, no flag (42_immediate.md R111). -/
  | addImm (x : Nibble) (nn : Byte)
  /-- `8XY0` Assign (43_alu.md R121). -/
  | ldReg (x y : Nibble)
  /-- `8XY1` Or (43_alu.md R122). -/
  | orReg (x y : Nibble)
  /-- `8XY2` And (43_alu.md R123). -/
  | andReg (x y : Nibble)
  /-- `8XY3` Exclusive or (43_alu.md R124). -/
  | xorReg (x y : Nibble)
  /-- `8XY4` Add with carry out (43_alu.md R125). -/
  | addReg (x y : Nibble)
  /-- `8XY5` Subtract (43_alu.md R126). -/
  | subReg (x y : Nibble)
  /-- `8XY6` Shift right (43_alu.md R127). -/
  | shrReg (x y : Nibble)
  /-- `8XY7` Subtract reversed (43_alu.md R128). -/
  | subnReg (x y : Nibble)
  /-- `8XYE` Shift left (43_alu.md R129). -/
  | shlReg (x y : Nibble)
  /-- `8XYN`, `N` in 8 to D or F: no-operation (43_alu.md R130). -/
  | nop8 (x y n : Nibble)
  /-- `9XY_` Skip if `V[X] ≠ V[Y]` (41_skip.md R103); the low nibble `n` is ignored (30_encoding.md R69). -/
  | sneReg (x y n : Nibble)
  /-- `ANNN` Set index (42_immediate.md R112). -/
  | ldI (nnn : Addr)
  /-- `BNNN` Jump by offset (40_flow.md R85). -/
  | jpV0 (nnn : Addr)
  /-- `CXNN` Random byte (42_immediate.md R113). -/
  | rnd (x : Nibble) (nn : Byte)
  /-- `DXYN` Draw sprite (44_display.md R141). -/
  | drw (x y n : Nibble)
  /-- `EX9E` Skip if key pressed (45_keys.md R150). -/
  | skp (x : Nibble)
  /-- `EXA1` Skip if key not pressed (45_keys.md R151). -/
  | sknp (x : Nibble)
  /-- `EXNN`, `NN` not 9E or A1: no-operation (45_keys.md R153). -/
  | nopE (x : Nibble) (nn : Byte)
  /-- `FX07` Read the delay timer (46_timers.md R160). -/
  | ldVxDt (x : Nibble)
  /-- `FX0A` Wait for a key release (45_keys.md R152). -/
  | ldVxK (x : Nibble)
  /-- `FX15` Set the delay timer (46_timers.md R161). -/
  | ldDtVx (x : Nibble)
  /-- `FX18` Set the sound timer (46_timers.md R162). -/
  | ldStVx (x : Nibble)
  /-- `FX1E` Add to the index (47_index_memory.md R170). -/
  | addI (x : Nibble)
  /-- `FX29` Index of a font glyph (47_index_memory.md R171). -/
  | ldF (x : Nibble)
  /-- `FX33` Store three decimal digits (47_index_memory.md R172). -/
  | ldB (x : Nibble)
  /-- `FX55` Register dump (47_index_memory.md R173). -/
  | dump (x : Nibble)
  /-- `FX65` Register load (47_index_memory.md R174). -/
  | load (x : Nibble)
  /-- `FXNN`, `NN` none of the nine values above: no-operation (47_index_memory.md R175). -/
  | nopF (x : Nibble) (nn : Byte)
  deriving DecidableEq, Repr

end Sys2Proof
end

