-- ==== Sys2Proof/Decode.lean ====
section
/-! DEFINITION. Decoding and encoding of the 16-bit word (30_encoding.md R60 to R72), and the opcode table as data. -/

namespace Sys2Proof

/-- The fields of a word (30_encoding.md R61). -/
def opField (w : InstrWord) : Nibble := w.extractLsb' 12 4
def xField (w : InstrWord) : Nibble := w.extractLsb' 8 4
def yField (w : InstrWord) : Nibble := w.extractLsb' 4 4
def nField (w : InstrWord) : Nibble := w.extractLsb' 0 4
def nnField (w : InstrWord) : Byte := w.extractLsb' 0 8
def nnnField (w : InstrWord) : Addr := w.extractLsb' 0 12

/-- Family 8 dispatches on the low nibble (30_encoding.md R66). -/
def decodeFamily8 (x y n : Nibble) : Instr :=
  if n = 0x0#4 then .ldReg x y
  else if n = 0x1#4 then .orReg x y
  else if n = 0x2#4 then .andReg x y
  else if n = 0x3#4 then .xorReg x y
  else if n = 0x4#4 then .addReg x y
  else if n = 0x5#4 then .subReg x y
  else if n = 0x6#4 then .shrReg x y
  else if n = 0x7#4 then .subnReg x y
  else if n = 0xE#4 then .shlReg x y
  else .nop8 x y n

/-- Family E dispatches on the low byte (30_encoding.md R67). -/
def decodeFamilyE (x : Nibble) (nn : Byte) : Instr :=
  if nn = 0x9E#8 then .skp x
  else if nn = 0xA1#8 then .sknp x
  else .nopE x nn

/-- Family F dispatches on the low byte (30_encoding.md R68). -/
def decodeFamilyF (x : Nibble) (nn : Byte) : Instr :=
  if nn = 0x07#8 then .ldVxDt x
  else if nn = 0x0A#8 then .ldVxK x
  else if nn = 0x15#8 then .ldDtVx x
  else if nn = 0x18#8 then .ldStVx x
  else if nn = 0x1E#8 then .addI x
  else if nn = 0x29#8 then .ldF x
  else if nn = 0x33#8 then .ldB x
  else if nn = 0x55#8 then .dump x
  else if nn = 0x65#8 then .load x
  else .nopF x nn

/-- The high nibble, once the two literal words have been tried (30_encoding.md R64, R65); `0NNN` is `SYS` (R71). -/
def decodeHighNibble (w : InstrWord) : Instr :=
  match (opField w).toNat with
  | 0x0 => .sys (nnnField w)
  | 0x1 => .jp (nnnField w)
  | 0x2 => .call (nnnField w)
  | 0x3 => .seImm (xField w) (nnField w)
  | 0x4 => .sneImm (xField w) (nnField w)
  | 0x5 => .seReg (xField w) (yField w) (nField w)
  | 0x6 => .ldImm (xField w) (nnField w)
  | 0x7 => .addImm (xField w) (nnField w)
  | 0x8 => decodeFamily8 (xField w) (yField w) (nField w)
  | 0x9 => .sneReg (xField w) (yField w) (nField w)
  | 0xA => .ldI (nnnField w)
  | 0xB => .jpV0 (nnnField w)
  | 0xC => .rnd (xField w) (nnField w)
  | 0xD => .drw (xField w) (yField w) (nField w)
  | 0xE => decodeFamilyE (xField w) (nnField w)
  | _ => decodeFamilyF (xField w) (nnField w)

/-- The decoder: total, no word is illegal (30_encoding.md R64). -/
def decodeWord (w : InstrWord) : Instr :=
  if w = 0x00E0#16 then .cls
  else if w = 0x00EE#16 then .ret
  else decodeHighNibble w

/-- Why bytes are no instruction. -/
inductive DecodeError where
  /-- Fewer than two bytes are left: every instruction is one 16-bit word (30_encoding.md R60). -/
  | truncated
  deriving DecidableEq, Repr

/-- Read one instruction from bytes in address order, the high byte first (20_memory.md R44), and the bytes left. -/
def decodeBytes : List Byte → Except DecodeError (Instr × List Byte)
  | hi :: lo :: rest => .ok (decodeWord (hi ++ lo), rest)
  | _ => .error .truncated

/-- The word of an instruction, written from the formats of 30_encoding.md R62 and the words of R65 to R68. -/
def encode : Instr → InstrWord
  | .cls => 0x00E0#16
  | .ret => 0x00EE#16
  | .sys nnn => 0x0#4 ++ nnn
  | .jp nnn => 0x1#4 ++ nnn
  | .call nnn => 0x2#4 ++ nnn
  | .seImm x nn => 0x3#4 ++ x ++ nn
  | .sneImm x nn => 0x4#4 ++ x ++ nn
  | .seReg x y n => 0x5#4 ++ x ++ y ++ n
  | .ldImm x nn => 0x6#4 ++ x ++ nn
  | .addImm x nn => 0x7#4 ++ x ++ nn
  | .ldReg x y => 0x8#4 ++ x ++ y ++ 0x0#4
  | .orReg x y => 0x8#4 ++ x ++ y ++ 0x1#4
  | .andReg x y => 0x8#4 ++ x ++ y ++ 0x2#4
  | .xorReg x y => 0x8#4 ++ x ++ y ++ 0x3#4
  | .addReg x y => 0x8#4 ++ x ++ y ++ 0x4#4
  | .subReg x y => 0x8#4 ++ x ++ y ++ 0x5#4
  | .shrReg x y => 0x8#4 ++ x ++ y ++ 0x6#4
  | .subnReg x y => 0x8#4 ++ x ++ y ++ 0x7#4
  | .shlReg x y => 0x8#4 ++ x ++ y ++ 0xE#4
  | .nop8 x y n => 0x8#4 ++ x ++ y ++ n
  | .sneReg x y n => 0x9#4 ++ x ++ y ++ n
  | .ldI nnn => 0xA#4 ++ nnn
  | .jpV0 nnn => 0xB#4 ++ nnn
  | .rnd x nn => 0xC#4 ++ x ++ nn
  | .drw x y n => 0xD#4 ++ x ++ y ++ n
  | .skp x => 0xE#4 ++ x ++ 0x9E#8
  | .sknp x => 0xE#4 ++ x ++ 0xA1#8
  | .nopE x nn => 0xE#4 ++ x ++ nn
  | .ldVxDt x => 0xF#4 ++ x ++ 0x07#8
  | .ldVxK x => 0xF#4 ++ x ++ 0x0A#8
  | .ldDtVx x => 0xF#4 ++ x ++ 0x15#8
  | .ldStVx x => 0xF#4 ++ x ++ 0x18#8
  | .addI x => 0xF#4 ++ x ++ 0x1E#8
  | .ldF x => 0xF#4 ++ x ++ 0x29#8
  | .ldB x => 0xF#4 ++ x ++ 0x33#8
  | .dump x => 0xF#4 ++ x ++ 0x55#8
  | .load x => 0xF#4 ++ x ++ 0x65#8
  | .nopF x nn => 0xF#4 ++ x ++ nn

/-- The bytes of an instruction in address order (20_memory.md R44). -/
def encodeBytes (i : Instr) : List Byte :=
  [(encode i).extractLsb' 8 8, (encode i).extractLsb' 0 8]

/-- The mnemonic of an instruction's row of spec/opcode_table.json. -/
def Instr.mnemonic : Instr → String
  | .cls => "CLS"
  | .ret => "RET"
  | .sys _ => "SYS_NNN"
  | .jp _ => "JP_NNN"
  | .call _ => "CALL_NNN"
  | .seImm _ _ => "SE_Vx__NN"
  | .sneImm _ _ => "SNE_Vx__NN"
  | .seReg _ _ _ => "SE_Vx__Vy"
  | .ldImm _ _ => "LD_Vx__NN"
  | .addImm _ _ => "ADD_Vx__NN"
  | .ldReg _ _ => "LD_Vx__Vy"
  | .orReg _ _ => "OR_Vx__Vy"
  | .andReg _ _ => "AND_Vx__Vy"
  | .xorReg _ _ => "XOR_Vx__Vy"
  | .addReg _ _ => "ADD_Vx__Vy"
  | .subReg _ _ => "SUB_Vx__Vy"
  | .shrReg _ _ => "SHR_Vx__Vy"
  | .subnReg _ _ => "SUBN_Vx__Vy"
  | .shlReg _ _ => "SHL_Vx__Vy"
  | .nop8 _ _ _ => "NOP8"
  | .sneReg _ _ _ => "SNE_Vx__Vy"
  | .ldI _ => "LD_I__NNN"
  | .jpV0 _ => "JP_V0__NNN"
  | .rnd _ _ => "RND_Vx__NN"
  | .drw _ _ _ => "DRW_Vx__Vy__N"
  | .skp _ => "SKP_Vx"
  | .sknp _ => "SKNP_Vx"
  | .nopE _ _ => "NOPE"
  | .ldVxDt _ => "LD_Vx__DT"
  | .ldVxK _ => "LD_Vx__K"
  | .ldDtVx _ => "LD_DT__Vx"
  | .ldStVx _ => "LD_ST__Vx"
  | .addI _ => "ADD_I__Vx"
  | .ldF _ => "LD_F__Vx"
  | .ldB _ => "LD_B__Vx"
  | .dump _ => "LD__I___Vx"
  | .load _ => "LD_Vx___I"
  | .nopF _ _ => "NOPF"

/-- One row of the opcode table: a word `w` fits it when `w &&& mask = pattern` (30_encoding.md R64). -/
structure OpcodeRow where
  mnemonic : String
  pattern : InstrWord
  mask : InstrWord
  priority : Nat
  deriving DecidableEq, Repr

/-- The word fits the row. -/
abbrev OpcodeRow.Fits (r : OpcodeRow) (w : InstrWord) : Prop := w &&& r.mask = r.pattern

/-- spec/opcode_table.json, row by row in its order. -/
def opcodeTable : List OpcodeRow :=
  [ ⟨"CLS", 0x00E0, 0xFFFF, 1⟩, ⟨"RET", 0x00EE, 0xFFFF, 1⟩, ⟨"SYS_NNN", 0x0000, 0xF000, 3⟩,
    ⟨"JP_NNN", 0x1000, 0xF000, 2⟩, ⟨"CALL_NNN", 0x2000, 0xF000, 2⟩, ⟨"SE_Vx__NN", 0x3000, 0xF000, 2⟩,
    ⟨"SNE_Vx__NN", 0x4000, 0xF000, 2⟩, ⟨"SE_Vx__Vy", 0x5000, 0xF000, 2⟩, ⟨"LD_Vx__NN", 0x6000, 0xF000, 2⟩,
    ⟨"ADD_Vx__NN", 0x7000, 0xF000, 2⟩ ] ++
  [ ⟨"LD_Vx__Vy", 0x8000, 0xF00F, 2⟩, ⟨"OR_Vx__Vy", 0x8001, 0xF00F, 2⟩, ⟨"AND_Vx__Vy", 0x8002, 0xF00F, 2⟩,
    ⟨"XOR_Vx__Vy", 0x8003, 0xF00F, 2⟩, ⟨"ADD_Vx__Vy", 0x8004, 0xF00F, 2⟩, ⟨"SUB_Vx__Vy", 0x8005, 0xF00F, 2⟩,
    ⟨"SHR_Vx__Vy", 0x8006, 0xF00F, 2⟩, ⟨"SUBN_Vx__Vy", 0x8007, 0xF00F, 2⟩, ⟨"SHL_Vx__Vy", 0x800E, 0xF00F, 2⟩,
    ⟨"NOP8", 0x8000, 0xF000, 3⟩ ] ++
  [ ⟨"SNE_Vx__Vy", 0x9000, 0xF000, 2⟩, ⟨"LD_I__NNN", 0xA000, 0xF000, 2⟩, ⟨"JP_V0__NNN", 0xB000, 0xF000, 2⟩,
    ⟨"RND_Vx__NN", 0xC000, 0xF000, 2⟩, ⟨"DRW_Vx__Vy__N", 0xD000, 0xF000, 2⟩, ⟨"SKP_Vx", 0xE09E, 0xF0FF, 2⟩,
    ⟨"SKNP_Vx", 0xE0A1, 0xF0FF, 2⟩, ⟨"NOPE", 0xE000, 0xF000, 3⟩ ] ++
  [ ⟨"LD_Vx__DT", 0xF007, 0xF0FF, 2⟩, ⟨"LD_Vx__K", 0xF00A, 0xF0FF, 2⟩, ⟨"LD_DT__Vx", 0xF015, 0xF0FF, 2⟩,
    ⟨"LD_ST__Vx", 0xF018, 0xF0FF, 2⟩, ⟨"ADD_I__Vx", 0xF01E, 0xF0FF, 2⟩, ⟨"LD_F__Vx", 0xF029, 0xF0FF, 2⟩,
    ⟨"LD_B__Vx", 0xF033, 0xF0FF, 2⟩, ⟨"LD__I___Vx", 0xF055, 0xF0FF, 2⟩, ⟨"LD_Vx___I", 0xF065, 0xF0FF, 2⟩,
    ⟨"NOPF", 0xF000, 0xF000, 3⟩ ]

/-- The bytes in memory of an instruction whose table bits are `w`: the word's high byte at the lower address. -/
def tableWordBytes (nbits w : Nat) : List Byte :=
  [BitVec.ofNat 8 (w % 2 ^ nbits / 256), BitVec.ofNat 8 (w % 2 ^ nbits)]

/-- What the decoder reads from an instruction whose bits, numbered as spec/opcode_table.json numbers them, are `w`. -/
def decodeTableWord (nbits w : Nat) : Option Instr :=
  match decodeBytes (tableWordBytes nbits w) with
  | .ok (i, _) => some i
  | .error _ => none

end Sys2Proof
end

