-- ==== Sys2Proof/Machine/Fetch.lean ====
section
/-! DEFINITION. Fetching an instruction from memory (20_memory.md R44), and placing one where the fetch reads it. -/

namespace Sys2Proof.Machine

/-- The word at an address, the byte at the lower address being the high byte (20_memory.md R44). -/
def State.wordAt (s : State) (a : Nat) : InstrWord := s.byte a ++ s.byte (a + 1)

/-- Fetch and decode; FETCH_RANGE at `PC = 0xFFF`, before memory is read (40_flow.md R80, 60_exceptions.md R202). -/
def State.fetch (s : State) : Except Fault Instr :=
  if s.pc = 0xFFF then .error .fetchRange else .ok (decodeWord (s.wordAt s.pc.toNat))

/-- Store the bytes of an opcode-table word where the next fetch reads them. -/
def State.placeWord (s : State) (nbits w : Nat) : State :=
  { s with mem := Memory.writeBytes s.mem s.pc.toNat (tableWordBytes nbits w) }

end Sys2Proof.Machine
end

