-- ==== Sys2Proof/Machine/Step.lean ====
section
/-! DEFINITION. The Step event (40_flow.md R80). -/

namespace Sys2Proof.Machine

/-- A Step: nothing changes while Faulted or AwaitingKey; else fetch, decode and execute one instruction, or take
FETCH_RANGE. Each meaning ends with its own `PC`, so nothing is added around `exec`. -/
def step (s : State) : Host.Outcome State Fault Refusal :=
  match s.mode with
  | .faulted _ => .next s
  | .awaitingKey _ => .next s
  | .running =>
    match s.fetch with
    | .error c => .next (s.raise c)
    | .ok i => exec i s

/-- The state with the given instruction stored at `PC`, where `step` fetches (log entry 6). -/
def State.withFetchWord (s : State) (nbits w : Nat) : State := s.placeWord nbits w

end Sys2Proof.Machine
end

