-- ==== Sys2Proof/Machine/Events.lean ====
section
/-! DEFINITION. The host's events (50_host_interface.md R180 to R186), the order of events in one clock (R188), and the
outputs (R187). -/

namespace Sys2Proof.Machine

/-- Memory after Reset with an accepted image: the image at 0x200, the font, zeros (10_state.md R26). -/
def loadedMemory (image : List Byte) : List Host.Cell := Memory.writeBytes [] Config.progBase image

/-- The state Reset leaves; only the random port and its counter, which are the host's and no state of the block, are
kept from before (50_host_interface.md R181, R230; log entry 3). -/
def State.powerUp (s : State) (mem : List Host.Cell) (fault : Option Fault) : State :=
  { State.reset with mem := mem, fault := fault, rndIn := s.rndIn, rndDraws := s.rndDraws }

/-- `Reset(image)`: an image above 3584 bytes is not stored and leaves LOAD_ERROR (50_host_interface.md R181). -/
def State.resetWith (s : State) (image : List Byte) : State :=
  if image.length > Config.maxImage then s.powerUp [] (some .loadError) else s.powerUp (loadedMemory image) none

/-- One down-count of a timer: by one while nonzero, never below 0 (50_host_interface.md R183). -/
def countDown (b : Byte) : Byte := if b = 0 then 0 else b - 1

/-- `Tick` (50_host_interface.md R183): not gated by the latch, ignored while Faulted. -/
def State.tick (s : State) : State :=
  if s.fault.isSome then s else { s with dt := countDown s.dt, st := countDown s.st }

/-- `KeyPress(k)` (50_host_interface.md R184). -/
def State.keyPress (s : State) (k : Nibble) : State :=
  if s.fault.isSome then s else s.setKey k true

/-- The wait-for-key latch is resolved by a release: the pad index goes to the latched register and the latch is
cleared (50_host_interface.md R185). -/
def State.resolveLatch (s : State) (k : Nibble) : State :=
  match s.wait with
  | some r => { s.setV r (k.setWidth 8) with wait := none }
  | none => s

/-- `KeyRelease(k)` (50_host_interface.md R185). -/
def State.keyRelease (s : State) (k : Nibble) : State :=
  if s.fault.isSome then s else (s.setKey k false).resolveLatch k

/-- `Step` with the random byte, or none, that the host gives it; a refused request has no effect on any state
(50_host_interface.md R182, R186). -/
def stepWith (r : Option Byte) (s : State) : Result :=
  match s.mode with
  | .running => step (s.present r)
  | .awaitingKey _ => .next s
  | .faulted _ => .next s

/-- The five events (50_host_interface.md R180). -/
inductive Event where
  | reset (image : List Byte)
  | step (random : Option Byte)
  | tick
  | keyPress (k : Nibble)
  | keyRelease (k : Nibble)
  deriving DecidableEq, Repr

/-- What an event does. -/
def applyEvent (e : Event) (s : State) : Result :=
  match e with
  | .reset image => .next (s.resetWith image)
  | .step random => stepWith random s
  | .tick => .next s.tick
  | .keyPress k => .next (s.keyPress k)
  | .keyRelease k => .next (s.keyRelease k)

/-- What the host presents in one clock without Reset: a Step request, the random port, a Tick, and at most one key
event (50_host_interface.md R188). -/
structure ClockInputs where
  step : Bool
  random : Option Byte
  tick : Bool
  /-- `(true, k)` is KeyPress(k), `(false, k)` is KeyRelease(k). -/
  keyEvent : Option (Bool × Nibble)
  deriving DecidableEq, Repr

/-- The key event of a clock. -/
def State.keyEvent (s : State) (e : Option (Bool × Nibble)) : State :=
  match e with
  | some (true, k) => s.keyPress k
  | some (false, k) => s.keyRelease k
  | none => s

/-- The events of one clock, in the order Step, Tick, key event (50_host_interface.md R188). -/
def clockCycle (c : ClockInputs) (s : State) : Result :=
  Result.andThen (if c.step then stepWith c.random s else .next s) fun t =>
    .next ((if c.tick then t.tick else t).keyEvent c.keyEvent)

/-- Framebuffer cell `Disp[x][y]` (50_host_interface.md R187). -/
def State.pixel (s : State) (x : Fin 64) (y : Fin 32) : Bool := dispGet s.disp x.val y.val

/-- The linear read port: cell index `64 * y + x` (50_host_interface.md R187, R189). -/
def State.fbBit (s : State) (addr : BitVec 11) : Bool := dispGet s.disp (addr.toNat % 64) (addr.toNat / 64)

/-- `snd`: the sound timer is not zero. -/
def State.snd (s : State) : Bool := s.st != 0

/-- `waiting` and `wait_reg`. -/
def State.waiting (s : State) : Bool := s.wait.isSome
def State.waitReg (s : State) : Nibble := s.wait.getD 0

/-- `faulted` and `fault_cause`: the code in the fault register, 0 for none (10_state.md R23). -/
def State.faulted (s : State) : Bool := s.fault.isSome
def State.faultCause (s : State) : BitVec 3 :=
  match s.fault with
  | some c => c.code
  | none => 0

/-- `pc_out`. -/
def State.pcOut (s : State) : Addr := s.pc

end Sys2Proof.Machine
end

