-- ==== Sys2Proof/Safety.lean ====
section
/-! DEFINITION. What claims speak of: a good state, the invariant, the end of a run, when an instruction faults. -/

namespace Sys2Proof.Machine

/-- No fault is recorded: a Faulted state is never a successful end of a run (60_exceptions.md R211). -/
abbrev State.Good (s : State) : Prop := s.fault = none

/-- The block is in mode Running (10_state.md R24). -/
abbrev State.Running (s : State) : Prop := s.fault = none ∧ s.wait = none

/-- What every step and every event keeps: memory is canonical and inside the address space (10_state.md R17), a Faulted
block waits for no key (R24), and `Stack[0]` is never written (R15). -/
abbrev State.Inv (s : State) : Prop :=
  Memory.Wf s.mem ∧ (s.fault ≠ none → s.wait = none) ∧ s.getStack 0 = 0

/-- No Step changes the state (70_reset_and_hazards.md R233). -/
def State.Quiescent (s : State) : Prop := step s = .next s

/-- The instruction jumps to the address it stands at (70_reset_and_hazards.md R233). -/
def State.selfJump (s : State) : Instr → Bool
  | .jp nnn => nnn == s.pc
  | .jpV0 nnn => s.offsetTarget nnn == s.pc
  | .cls | .ret | .sys _ | .call _ | .seImm _ _ | .sneImm _ _ | .seReg _ _ _ | .ldImm _ _ | .addImm _ _
  | .ldReg _ _ | .orReg _ _ | .andReg _ _ | .xorReg _ _ | .addReg _ _ | .subReg _ _ | .shrReg _ _
  | .subnReg _ _ | .shlReg _ _ | .nop8 _ _ _ | .sneReg _ _ _ | .ldI _ | .rnd _ _ | .drw _ _ _ | .skp _
  | .sknp _ | .nopE _ _ | .ldVxDt _ | .ldVxK _ | .ldDtVx _ | .ldStVx _ | .addI _ | .ldF _ | .ldB _
  | .dump _ | .load _ | .nopF _ _ => false

/-- A run has ended well (70_reset_and_hazards.md R233, kind (c)). -/
def State.EndedWell (s : State) : Prop :=
  s.Running ∧ s.pc ≠ 0xFFF ∧ s.selfJump (decodeWord (s.wordAt s.pc.toNat)) = true

/-- The condition under which an instruction raises a cause (60_exceptions.md R201 to R207). -/
def State.RaisesOn (s : State) : Instr → Fault → Prop
  | .call _, .stackOverflow => s.sp = 15
  | .ret, .stackUnderflow => s.sp = 0
  | .rnd _ _, .entropy => s.rndIn = none
  | .drw _ _ n, .memRange => n.toNat ≥ 1 ∧ s.i.toNat + n.toNat - 1 > 0xFFF
  | .ldB _, .memRange => s.i.toNat + 2 > 0xFFF
  | .dump x, .memRange => s.i.toNat + x.toNat > 0xFFF
  | .load x, .memRange => s.i.toNat + x.toNat > 0xFFF
  | .skp x, .keyIndex => (s.getV x).toNat > 15
  | .sknp x, .keyIndex => (s.getV x).toNat > 15
  | _, _ => False

/-- `(PC + k) mod 4096` (40_flow.md R80), as claims write it. -/
def State.pcPlus (s : State) (k : Nat) : Addr := BitVec.ofNat 12 ((s.pc.toNat + k) % 4096)

/-- The byte at an address after `LD [I], Vx` in this state (47_index_memory.md R173). -/
def State.dumpedByte (s : State) (x : Nibble) (a : Nat) : Byte :=
  if s.i.toNat ≤ a ∧ a ≤ s.i.toNat + x.toNat then s.getV (BitVec.ofNat 4 (a - s.i.toNat)) else s.byte a

/-- The byte at an address after `LD B, Vx` in this state (47_index_memory.md R172). -/
def State.bcdByte (s : State) (x : Nibble) (a : Nat) : Byte :=
  if a = s.i.toNat then BitVec.ofNat 8 ((s.getV x).toNat / 100)
  else if a = s.i.toNat + 1 then BitVec.ofNat 8 ((s.getV x).toNat / 10 % 10)
  else if a = s.i.toNat + 2 then BitVec.ofNat 8 ((s.getV x).toNat % 10)
  else s.byte a

/-- A 1 bit of the sprite falls on the cell `(px, py)`: bit `7 - c` of the byte at `I + r` goes to
`((V[X] mod 64 + c) mod 64, (V[Y] mod 32 + r) mod 32)` (44_display.md R142). -/
def State.SpriteCovers (s : State) (x y n : Nibble) (px py : Nat) : Prop :=
  ∃ r < n.toNat, ∃ c < 8, (s.byte (s.i.toNat + r)).getLsbD (7 - c) = true ∧
    ((s.getV x).toNat % 64 + c) % 64 = px ∧ ((s.getV y).toNat % 32 + r) % 32 = py

/-- The cell `(px, py)` is lit. -/
def State.Lit (s : State) (px py : Nat) : Prop := dispGet s.disp px py = true

/-- The registers an instruction may write (10_state.md R12, R27): its destination, and VF where it has a flag. -/
def writesRegister : Instr → Nibble → Bool
  | .ldImm x _, r | .addImm x _, r | .rnd x _, r | .ldReg x _, r | .ldVxDt x, r => r == x
  | .orReg x _, r | .andReg x _, r | .xorReg x _, r | .addReg x _, r | .subReg x _, r | .shrReg x _, r
  | .subnReg x _, r | .shlReg x _, r => r == x || r == 0xF
  | .drw _ _ _, r => r == 0xF
  | .load x, r => decide (r.toNat ≤ x.toNat)
  | .cls, _ | .ret, _ | .sys _, _ | .jp _, _ | .call _, _ | .seImm _ _, _ | .sneImm _ _, _ | .seReg _ _ _, _
  | .nop8 _ _ _, _ | .sneReg _ _ _, _ | .ldI _, _ | .jpV0 _, _ | .skp _, _ | .sknp _, _ | .nopE _ _, _
  | .ldVxK _, _ | .ldDtVx _, _ | .ldStVx _, _ | .addI _, _ | .ldF _, _ | .ldB _, _ | .dump _, _
  | .nopF _ _, _ => false

end Sys2Proof.Machine
end

