-- ==== Sys2Proof/Certificates/Slice0/Obligations.lean ====
section
/-! DEFINITION. What the provers are asked to prove. Each statement's `t = { s with ... }` is its frame: every component
of the state not named there, every byte of memory among them, is that of `s`. Decisions `D<n>` are the spec's own
choices (92_eei_decisions.md). -/

open Sys2Proof Sys2Proof.Machine

/-! ## Encoding -/

/-- 30_encoding.md R60 to R68 (numbers: D28): the decoder undoes the encoder on every well-formed instruction, also as
bytes in address order, high byte first. -/
def Obligations.DecodeUndoesEncode : Prop :=
  ∀ (i : Instr) (rest : List Byte), WellFormed i →
    decodeWord (encode i) = i ∧ decodeBytes (encodeBytes i ++ rest) = .ok (i, rest)

/-- 30_encoding.md R64: every word is the word of the well-formed instruction it decodes to, so that no bit is dropped.
It holds because a constructor keeps also the bits no meaning reads, which is the model's choice (log entry 10, DESIGN
CHOICE): words that the spec makes aliases (R69) or no-operations (R70, R71) decode to instructions that differ and have
one effect. -/
def Obligations.EncodeUndoesDecode : Prop :=
  ∀ w : InstrWord, WellFormed (decodeWord w) ∧ encode (decodeWord w) = w

/-- 30_encoding.md R64: among the rows of the opcode table a word fits, exactly one has the smallest priority number, and
the decoder selects it; no word is illegal. -/
def Obligations.DecodeSelectsTableRow : Prop :=
  ∀ w : InstrWord, ∃ r ∈ opcodeTable, r.Fits w ∧ r.mnemonic = (decodeWord w).mnemonic ∧
    ∀ r' ∈ opcodeTable, r'.Fits w → r' ≠ r → r.priority < r'.priority

/-- Words written out from 30_encoding.md R65 to R68 and 95_test_vectors.md 2.9, one or more of every family. -/
def Obligations.DecodeOfSpecWords : Prop :=
  decodeWord 0x00E0 = .cls ∧ decodeWord 0x00EE = .ret ∧ decodeWord 0x00E1 = .sys 0x0E1 ∧
  decodeWord 0x1ABC = .jp 0xABC ∧ decodeWord 0x220A = .call 0x20A ∧ decodeWord 0xBABC = .jpV0 0xABC ∧
  decodeWord 0x3A17 = .seImm 0xA 0x17 ∧ decodeWord 0x5127 = .seReg 0x1 0x2 0x7 ∧
  decodeWord 0x912F = .sneReg 0x1 0x2 0xF ∧ decodeWord 0x6A17 = .ldImm 0xA 0x17 ∧
  decodeWord 0xA123 = .ldI 0x123 ∧ decodeWord 0xC30F = .rnd 0x3 0x0F ∧ decodeWord 0x8126 = .shrReg 0x1 0x2 ∧
  decodeWord 0x812E = .shlReg 0x1 0x2 ∧ decodeWord 0x8ABD = .nop8 0xA 0xB 0xD ∧
  decodeWord 0xD125 = .drw 0x1 0x2 0x5 ∧ decodeWord 0xE3A1 = .sknp 0x3 ∧ decodeWord 0xE19F = .nopE 0x1 0x9F ∧
  decodeWord 0xF30A = .ldVxK 0x3 ∧ decodeWord 0xF118 = .ldStVx 0x1 ∧ decodeWord 0xF355 = .dump 0x3 ∧
  decodeWord 0xF365 = .load 0x3 ∧ decodeWord 0xF056 = .nopF 0x0 0x56

/-! ## The Step -/

/-- 40_flow.md R80: a Running block whose bytes at `PC` and `PC + 1` decode to `i` executes `i`; the step adds nothing
around `exec`. -/
def Obligations.StepRunsDecodedInstruction : Prop :=
  ∀ (s : State) (i : Instr), s.Running → s.pc ≠ 0xFFF →
    decodeBytes [s.byte s.pc.toNat, s.byte (s.pc.toNat + 1)] = .ok (i, []) → step s = exec i s

/-- 60_exceptions.md R202 (the spec's decision D2): at `PC = 0xFFF` the Step raises FETCH_RANGE whatever memory holds,
and nothing but the fault register changes. -/
def Obligations.FetchAboveMemoryFaults : Prop :=
  ∀ s : State, s.Running → s.pc = 0xFFF → step s = .next { s with fault := some .fetchRange }

/-- 40_flow.md R80, 50_host_interface.md R182 (D20): a Step requested while Faulted or AwaitingKey changes nothing. -/
def Obligations.StepGatedByMode : Prop :=
  ∀ (s : State) (r : Option Byte), s.fault ≠ none ∨ s.wait ≠ none → step s = .next s ∧ stepWith r s = .next s

/-- 30_encoding.md R72, 60_exceptions.md R210: no word is illegal, and every instruction, Step and event answers a next
state from every state. That a fault is TAKEN as a next state, and never answered as the outcome fault or refused, is the
model's reading of the spec's stop (log entry 4, DEDUCED). -/
def Obligations.NothingStopsTheMachine : Prop :=
  (∀ (i : Instr) (s : State), ∃ t, exec i s = .next t) ∧ (∀ s : State, ∃ t, step s = .next t) ∧
  (∀ (e : Event) (s : State), ∃ t, applyEvent e s = .next t)

/-! ## Control flow -/

/-- 40_flow.md R81 (the spec's decision D11): `SYS` does nothing but the default advance. -/
def Obligations.SysOnlyAdvances : Prop :=
  ∀ (s : State) (nnn : Addr), exec (.sys nnn) s = .next { s with pc := s.pcPlus 2 }

/-- 43_alu.md R130, 45_keys.md R153, 47_index_memory.md R175: the unrecognised words of families 8, E and F decode to
no-operations, which do nothing but the default advance. -/
def Obligations.UnrecognisedWordsOnlyAdvance : Prop :=
  (∀ (s : State) (x y n : Nibble), exec (.nop8 x y n) s = .next { s with pc := s.pcPlus 2 }) ∧
  (∀ (s : State) (x : Nibble) (nn : Byte), exec (.nopE x nn) s = .next { s with pc := s.pcPlus 2 }) ∧
  (∀ (s : State) (x : Nibble) (nn : Byte), exec (.nopF x nn) s = .next { s with pc := s.pcPlus 2 }) ∧
  (∀ x y n : Nibble, n ∈ [0x8#4, 0x9#4, 0xA#4, 0xB#4, 0xC#4, 0xD#4, 0xF#4] →
    decodeWord (0x8#4 ++ x ++ y ++ n) = .nop8 x y n) ∧
  (∀ (x : Nibble) (nn : Byte), nn ≠ 0x9E → nn ≠ 0xA1 → decodeWord (0xE#4 ++ x ++ nn) = .nopE x nn) ∧
  (∀ (x : Nibble) (nn : Byte), nn ∉ [0x07#8, 0x0A#8, 0x15#8, 0x18#8, 0x1E#8, 0x29#8, 0x33#8, 0x55#8, 0x65#8] →
    decodeWord (0xF#4 ++ x ++ nn) = .nopF x nn)

/-- 40_flow.md R83: `1NNN` sets `PC` to `NNN`, any 12-bit value, and changes nothing else. -/
def Obligations.JumpGoesToTarget : Prop :=
  ∀ (s : State) (nnn : Addr), decodeWord (0x1#4 ++ nnn) = .jp nnn ∧ exec (.jp nnn) s = .next { s with pc := nnn }

/-- 40_flow.md R85 (the reduction is the spec's decision D3): `JP V0` goes to `(NNN + V[0]) mod 4096`. -/
def Obligations.JumpByOffsetWraps : Prop :=
  ∀ (s : State) (nnn : Addr),
    exec (.jpV0 nnn) s = .next { s with pc := BitVec.ofNat 12 ((nnn.toNat + (s.getV 0).toNat) % 4096) }

/-- 40_flow.md R84 (the pushed value is the spec's decision D5): with `SP` below 15, `CALL` increments `SP`, writes
`(PC + 2) mod 4096` to the new top entry and no other, and jumps. -/
def Obligations.CallPushesReturnAddress : Prop :=
  ∀ (s : State) (nnn : Addr), s.sp ≠ 15 → ∃ t, exec (.call nnn) s = .next t ∧
    t = { s with pc := nnn, sp := t.sp, stack := t.stack } ∧ t.sp.toNat = s.sp.toNat + 1 ∧
    ∀ k : Nibble, t.getStack k = if k.toNat = s.sp.toNat + 1 then s.pcPlus 2 else s.getStack k

/-- 40_flow.md R82 (D5): with `SP` above 0, `RET` takes `PC` from `Stack[SP]` and decrements `SP`; no entry is erased. -/
def Obligations.ReturnPopsAddress : Prop :=
  ∀ s : State, s.sp ≠ 0 →
    exec .ret s = .next { s with pc := s.getStack s.sp, sp := BitVec.ofNat 4 (s.sp.toNat - 1) }

/-- 60_exceptions.md R204, R205 (the spec's decision D4): the 16th nested `CALL` and a `RET` on the empty stack fault,
and change nothing but the fault register. -/
def Obligations.StackFaultsAreTaken : Prop :=
  (∀ (s : State) (nnn : Addr), s.sp = 15 → exec (.call nnn) s = .next { s with fault := some .stackOverflow }) ∧
  (∀ s : State, s.sp = 0 → exec .ret s = .next { s with fault := some .stackUnderflow })

/-- 95_test_vectors.md S8, 40_flow.md R82 and R84: `CALL` then at once `RET` comes back to the instruction after the
call site; only the stack entry used keeps a trace. -/
def Obligations.CallThenReturnComesBack : Prop :=
  ∀ (s : State) (nnn : Addr), s.sp ≠ 15 → ∃ t u, exec (.call nnn) s = .next t ∧ exec .ret t = .next u ∧
    u = { s with pc := s.pcPlus 2, stack := u.stack } ∧
    ∀ k : Nibble, k.toNat ≠ s.sp.toNat + 1 → u.getStack k = s.getStack k

/-! ## Skips -/

/-- 41_skip.md R100 to R104 (the wrap is the spec's decision D3): the four skips go to `(PC + 4) mod 4096` when their
condition holds, else to `(PC + 2) mod 4096`, and write nothing else; the low nibble of the register forms is ignored. -/
def Obligations.SkipsCompareAndAdvance : Prop :=
  ∀ (s : State) (x y n : Nibble) (nn : Byte),
    exec (.seImm x nn) s = .next { s with pc := s.pcPlus (if (s.getV x).toNat = nn.toNat then 4 else 2) } ∧
    exec (.sneImm x nn) s = .next { s with pc := s.pcPlus (if (s.getV x).toNat = nn.toNat then 2 else 4) } ∧
    exec (.seReg x y n) s = .next { s with pc := s.pcPlus (if (s.getV x).toNat = (s.getV y).toNat then 4 else 2) } ∧
    exec (.sneReg x y n) s = .next { s with pc := s.pcPlus (if (s.getV x).toNat = (s.getV y).toNat then 2 else 4) }

/-! ## Immediates -/

/-- 42_immediate.md R110: `6XNN` sets `V[X]` to `NN`, VF like any register, and writes no flag. -/
def Obligations.LoadImmediateSetsRegister : Prop :=
  ∀ (s : State) (x : Nibble) (nn : Byte), decodeWord (0x6#4 ++ x ++ nn) = .ldImm x nn ∧
    ∃ t, exec (.ldImm x nn) s = .next t ∧ t = { s with v := t.v, pc := s.pcPlus 2 } ∧
      ∀ r : Nibble, t.getV r = if r = x then nn else s.getV r

/-- 42_immediate.md R111: `7XNN` adds modulo 256 and writes no flag: VF changes only as the destination. -/
def Obligations.AddImmediateWrapsWithoutFlag : Prop :=
  ∀ (s : State) (x : Nibble) (nn : Byte), decodeWord (0x7#4 ++ x ++ nn) = .addImm x nn ∧
    ∃ t, exec (.addImm x nn) s = .next t ∧ t = { s with v := t.v, pc := s.pcPlus 2 } ∧
      ∀ r : Nibble, (t.getV r).toNat = if r = x then ((s.getV x).toNat + nn.toNat) % 256 else (s.getV r).toNat

/-- 42_immediate.md R112: `ANNN` sets `I` to any 12-bit value, with no range fault. -/
def Obligations.SetIndexTakesAnyAddress : Prop :=
  ∀ (s : State) (nnn : Addr), decodeWord (0xA#4 ++ nnn) = .ldI nnn ∧
    exec (.ldI nnn) s = .next { s with i := nnn, pc := s.pcPlus 2 }

/-- 42_immediate.md R113: when the host presents a byte `r`, `RND` stores `r` AND `NN`, draws exactly one byte, and
writes no flag; nothing is said of what the port presents next (log entry 3). -/
def Obligations.RandomByteIsMasked : Prop :=
  ∀ (s : State) (x : Nibble) (nn r : Byte), s.rndIn = some r → ∃ t, exec (.rnd x nn) s = .next t ∧
    t = { s with v := t.v, pc := s.pcPlus 2, rndIn := t.rndIn, rndDraws := s.rndDraws + 1 } ∧
    (∀ q : Nibble, t.getV q = if q = x then r &&& nn else s.getV q) ∧ t.getV x &&& ~~~nn = 0

/-! ## Family 8 -/

/-- 43_alu.md R121: `8XY0` copies `V[Y]` to `V[X]` and writes no flag. -/
def Obligations.AssignCopiesRegister : Prop :=
  ∀ (s : State) (x y : Nibble), decodeWord (0x8#4 ++ x ++ y ++ 0x0#4) = .ldReg x y ∧
    ∃ t, exec (.ldReg x y) s = .next t ∧ t = { s with v := t.v, pc := s.pcPlus 2 } ∧
      ∀ r : Nibble, t.getV r = if r = x then s.getV y else s.getV r

/-- 43_alu.md R122 to R124: `OR`, `AND`, `XOR` store the bitwise result in `V[X]`, bit by bit, and clear VF, which wins
when `X = 0xF`. -/
def Obligations.LogicClearsFlag : Prop :=
  ∀ (s : State) (x y : Nibble),
    decodeWord (0x8#4 ++ x ++ y ++ 0x1#4) = .orReg x y ∧ decodeWord (0x8#4 ++ x ++ y ++ 0x2#4) = .andReg x y ∧
    decodeWord (0x8#4 ++ x ++ y ++ 0x3#4) = .xorReg x y ∧
    (∃ t, exec (.orReg x y) s = .next t ∧ t = { s with v := t.v, pc := s.pcPlus 2 } ∧ ∀ (r : Nibble) (k : Nat),
      (t.getV r).getLsbD k = if r = 0xF then false
        else if r = x then ((s.getV x).getLsbD k || (s.getV y).getLsbD k) else (s.getV r).getLsbD k) ∧
    (∃ t, exec (.andReg x y) s = .next t ∧ t = { s with v := t.v, pc := s.pcPlus 2 } ∧ ∀ (r : Nibble) (k : Nat),
      (t.getV r).getLsbD k = if r = 0xF then false
        else if r = x then ((s.getV x).getLsbD k && (s.getV y).getLsbD k) else (s.getV r).getLsbD k) ∧
    (∃ t, exec (.xorReg x y) s = .next t ∧ t = { s with v := t.v, pc := s.pcPlus 2 } ∧ ∀ (r : Nibble) (k : Nat),
      (t.getV r).getLsbD k = if r = 0xF then false
        else if r = x then ((s.getV x).getLsbD k ^^ (s.getV y).getLsbD k) else (s.getV r).getLsbD k)

/-- 43_alu.md R125: `8XY4` stores the sum modulo 256 and sets VF to 1 exactly when the sum passes 255; the flag wins
when `X = 0xF`, and the old VF is not added. -/
def Obligations.AddSetsCarry : Prop :=
  ∀ (s : State) (x y : Nibble), decodeWord (0x8#4 ++ x ++ y ++ 0x4#4) = .addReg x y ∧
    ∃ t, exec (.addReg x y) s = .next t ∧ t = { s with v := t.v, pc := s.pcPlus 2 } ∧
      ∀ r : Nibble, (t.getV r).toNat =
        if r = 0xF then (if (s.getV x).toNat + (s.getV y).toNat > 255 then 1 else 0)
        else if r = x then ((s.getV x).toNat + (s.getV y).toNat) % 256 else (s.getV r).toNat

/-- 43_alu.md R126, R128: `8XY5` and `8XY7` store `V[X] - V[Y]` and `V[Y] - V[X]` modulo 256 in `V[X]` and set VF to 1
exactly when the minuend is not below the subtrahend. -/
def Obligations.SubtractionsSetNotBorrow : Prop :=
  ∀ (s : State) (x y : Nibble),
    decodeWord (0x8#4 ++ x ++ y ++ 0x5#4) = .subReg x y ∧ decodeWord (0x8#4 ++ x ++ y ++ 0x7#4) = .subnReg x y ∧
    (∃ t, exec (.subReg x y) s = .next t ∧ t = { s with v := t.v, pc := s.pcPlus 2 } ∧
      ∀ r : Nibble, (t.getV r).toNat =
        if r = 0xF then (if (s.getV x).toNat ≥ (s.getV y).toNat then 1 else 0)
        else if r = x then ((s.getV x).toNat + 256 - (s.getV y).toNat) % 256 else (s.getV r).toNat) ∧
    (∃ t, exec (.subnReg x y) s = .next t ∧ t = { s with v := t.v, pc := s.pcPlus 2 } ∧
      ∀ r : Nibble, (t.getV r).toNat =
        if r = 0xF then (if (s.getV y).toNat ≥ (s.getV x).toNat then 1 else 0)
        else if r = x then ((s.getV y).toNat + 256 - (s.getV x).toNat) % 256 else (s.getV r).toNat)

/-- 43_alu.md R127, R129: both shifts take `V[Y]`, by one, and set VF to the bit shifted out; the old `V[X]` plays no
part and `V[Y]` keeps its value. -/
def Obligations.ShiftsTakeSecondOperand : Prop :=
  ∀ (s : State) (x y : Nibble),
    decodeWord (0x8#4 ++ x ++ y ++ 0x6#4) = .shrReg x y ∧ decodeWord (0x8#4 ++ x ++ y ++ 0xE#4) = .shlReg x y ∧
    (∃ t, exec (.shrReg x y) s = .next t ∧ t = { s with v := t.v, pc := s.pcPlus 2 } ∧
      ∀ r : Nibble, (t.getV r).toNat =
        if r = 0xF then (s.getV y).toNat % 2 else if r = x then (s.getV y).toNat / 2 else (s.getV r).toNat) ∧
    (∃ t, exec (.shlReg x y) s = .next t ∧ t = { s with v := t.v, pc := s.pcPlus 2 } ∧
      ∀ r : Nibble, (t.getV r).toNat =
        if r = 0xF then (s.getV y).toNat / 128 else if r = x then 2 * (s.getV y).toNat % 256 else (s.getV r).toNat)

/-! ## Display -/

/-- 44_display.md R140: `00E0` leaves all 2048 cells 0 and changes nothing else but `PC`. -/
def Obligations.ClearLeavesNoCellLit : Prop :=
  ∀ s : State, decodeWord 0x00E0 = .cls ∧ ∃ t, exec .cls s = .next t ∧
    t = { s with disp := t.disp, pc := s.pcPlus 2 } ∧ ∀ px < 64, ∀ py < 32, ¬ t.Lit px py

/-- 44_display.md R142: `DRW` flips exactly the cells under a 1 bit of the sprite, both coordinates wrapping, and leaves
the others; it holds whenever the rows lie in memory (always for `N = 0`). The value of VF is the next statement's. -/
def Obligations.SpriteIsXorBlit : Prop :=
  ∀ (s : State) (x y n : Nibble), s.i.toNat + n.toNat ≤ 4096 → ∃ t, exec (.drw x y n) s = .next t ∧
    t = { s with disp := t.disp, v := t.v, pc := s.pcPlus 2 } ∧ (∀ r : Nibble, r ≠ 0xF → t.getV r = s.getV r) ∧
    ∀ px < 64, ∀ py < 32, (t.Lit px py ↔ (s.Lit px py ∧ ¬ s.SpriteCovers x y n px py) ∨
      (¬ s.Lit px py ∧ s.SpriteCovers x y n px py))

/-- 44_display.md R141, R143 (the canonical policy is the spec's decision D9, log entry 5; `N = 0` D26): `DRW` sets VF to
1 if some cell was lit under a 1 bit of the sprite, that is went from 1 to 0, else to 0. -/
def Obligations.SpriteSetsCollisionFlag : Prop :=
  ∀ (s : State) (x y n : Nibble), s.i.toNat + n.toNat ≤ 4096 → ∃ t, exec (.drw x y n) s = .next t ∧
    ((∃ px < 64, ∃ py < 32, s.Lit px py ∧ s.SpriteCovers x y n px py) → t.getV 0xF = 1) ∧
    ((¬ ∃ px < 64, ∃ py < 32, s.Lit px py ∧ s.SpriteCovers x y n px py) → t.getV 0xF = 0)

/-- 44_display.md R144 (canonical policy, D9): the same sprite drawn twice restores the display, provided the first
draw's flag has not changed the coordinates (`X` or `Y` being VF); the second draw collides exactly when a 1 bit fell on
a cell that was 0 before the first. -/
def Obligations.DrawingTwiceRestoresDisplay : Prop :=
  ∀ (s : State) (x y n : Nibble), s.i.toNat + n.toNat ≤ 4096 → ∃ t, exec (.drw x y n) s = .next t ∧
    (t.getV x = s.getV x → t.getV y = s.getV y → ∃ u, exec (.drw x y n) t = .next u ∧ u.disp = s.disp ∧
      (u.getV 0xF = 1 ↔ ∃ px < 64, ∃ py < 32, ¬ s.Lit px py ∧ s.SpriteCovers x y n px py))

/-! ## Keys -/

/-- 45_keys.md R150, R151: with a pad index in `V[X]`, `SKP` skips if that key is pressed and `SKNP` if it is not; neither
writes anything but `PC`. -/
def Obligations.KeySkipsTestKeyState : Prop :=
  ∀ (s : State) (x k : Nibble), (s.getV x).toNat = k.toNat →
    exec (.skp x) s = .next { s with pc := s.pcPlus (if s.getKey k then 4 else 2) } ∧
    exec (.sknp x) s = .next { s with pc := s.pcPlus (if s.getKey k then 2 else 4) }

/-- 60_exceptions.md R206, R207 (the spec's decisions D12, D13): a key skip with `V[X]` above 15 raises KEY_INDEX, `RND`
with no byte at the port raises ENTROPY, and nothing but the fault register changes. -/
def Obligations.InputFaultsAreTaken : Prop :=
  ∀ (s : State) (x : Nibble) (nn : Byte),
    ((s.getV x).toNat > 15 → exec (.skp x) s = .next { s with fault := some .keyIndex } ∧
      exec (.sknp x) s = .next { s with fault := some .keyIndex }) ∧
    (s.rndIn = none → exec (.rnd x nn) s = .next { s with fault := some .entropy })

/-- 45_keys.md R152 (the advance is the spec's decision D30): `LD Vx, K` sets the latch and advances; `V[X]` keeps its
value. -/
def Obligations.WaitForKeySetsLatch : Prop :=
  ∀ (s : State) (x : Nibble), exec (.ldVxK x) s = .next { s with wait := some x, pc := s.pcPlus 2 }

/-! ## Timers and the index register -/

/-- 46_timers.md R160 to R162: the three timer instructions move a byte between `V[X]` and a timer; after `LD ST, Vx` the
output `snd` is on exactly until the Ticks that follow have counted `V[X]` down to 0. -/
def Obligations.TimerInstructionsMoveBytes : Prop :=
  ∀ (s : State) (x : Nibble),
    decodeWord (0xF#4 ++ x ++ 0x07#8) = .ldVxDt x ∧ decodeWord (0xF#4 ++ x ++ 0x15#8) = .ldDtVx x ∧
    decodeWord (0xF#4 ++ x ++ 0x18#8) = .ldStVx x ∧
    (∃ t, exec (.ldVxDt x) s = .next t ∧ t = { s with v := t.v, pc := s.pcPlus 2 } ∧
      ∀ r : Nibble, t.getV r = if r = x then s.dt else s.getV r) ∧
    exec (.ldDtVx x) s = .next { s with dt := s.getV x, pc := s.pcPlus 2 } ∧
    (∃ t, exec (.ldStVx x) s = .next t ∧ t = { s with st := s.getV x, pc := s.pcPlus 2 } ∧
      (t.snd = true ↔ s.getV x ≠ 0) ∧
      (s.fault = none → ∀ k : Nat, (State.tick^[k] t).snd = true ↔ k < (s.getV x).toNat))

/-- 47_index_memory.md R170 (no flag: the spec's decision D31): `I` becomes `(I + V[X]) mod 4096` and VF keeps its value. -/
def Obligations.AddToIndexWraps : Prop :=
  ∀ (s : State) (x : Nibble), exec (.addI x) s =
    .next { s with i := BitVec.ofNat 12 ((s.i.toNat + (s.getV x).toNat) % 4096), pc := s.pcPlus 2 }

/-- 47_index_memory.md R171: `FX29` sets `I` to 5 times the low nibble of `V[X]`. -/
def Obligations.GlyphAddressIsFiveTimesDigit : Prop :=
  ∀ (s : State) (x : Nibble), decodeWord (0xF#4 ++ x ++ 0x29#8) = .ldF x ∧
    exec (.ldF x) s = .next { s with i := BitVec.ofNat 12 (5 * ((s.getV x).toNat % 16)), pc := s.pcPlus 2 }

/-! ## Memory -/

/-- 47_index_memory.md R172: with `I + 2` in memory, the hundreds, tens and ones digits of `V[X]` are stored at `I`,
`I + 1`, `I + 2`, every other byte is as before, and `I` and the registers keep their values. Canonical memory is the
premise that the invariant statements keep. -/
def Obligations.BcdStoresThreeDigits : Prop :=
  ∀ (s : State) (x : Nibble), Memory.Wf s.mem → s.i.toNat + 2 ≤ 0xFFF → ∃ t, exec (.ldB x) s = .next t ∧
    t = { s with mem := t.mem, pc := s.pcPlus 2 } ∧
    ∀ a : Nat, (t.byte a).toNat =
      if a = s.i.toNat then (s.getV x).toNat / 100
      else if a = s.i.toNat + 1 then (s.getV x).toNat / 10 % 10
      else if a = s.i.toNat + 2 then (s.getV x).toNat % 10
      else (s.byte a).toNat

/-- 47_index_memory.md R173: with `I + X` in memory, `V[k]` is stored at `I + k` for `k` from 0 to `X`, every other byte
is as before, and `I` becomes `(I + X + 1) mod 4096`. -/
def Obligations.DumpStoresRegisters : Prop :=
  ∀ (s : State) (x : Nibble), Memory.Wf s.mem → s.i.toNat + x.toNat ≤ 0xFFF → ∃ t, exec (.dump x) s = .next t ∧
    t = { s with mem := t.mem, i := BitVec.ofNat 12 ((s.i.toNat + x.toNat + 1) % 4096), pc := s.pcPlus 2 } ∧
    (∀ k : Nibble, k.toNat ≤ x.toNat → t.byte (s.i.toNat + k.toNat) = s.getV k) ∧
    ∀ a : Nat, a < s.i.toNat ∨ a > s.i.toNat + x.toNat → t.byte a = s.byte a

/-- 47_index_memory.md R174: with `I + X` in memory, `V[k]` becomes the byte at `I + k` for `k` from 0 to `X`, registers
above are untouched, memory is as before, and `I` becomes `(I + X + 1) mod 4096`. -/
def Obligations.LoadFillsRegisters : Prop :=
  ∀ (s : State) (x : Nibble), s.i.toNat + x.toNat ≤ 0xFFF → ∃ t, exec (.load x) s = .next t ∧
    t = { s with v := t.v, i := BitVec.ofNat 12 ((s.i.toNat + x.toNat + 1) % 4096), pc := s.pcPlus 2 } ∧
    ∀ k : Nibble, t.getV k = if k.toNat ≤ x.toNat then s.byte (s.i.toNat + k.toNat) else s.getV k

/-- 60_exceptions.md R203 (the spec's decision D1): each of the four memory instructions whose last data address passes
0xFFF raises MEM_RANGE, and changes nothing but the fault register. -/
def Obligations.MemoryRangeFaultsAreTaken : Prop :=
  ∀ (s : State) (x y n : Nibble),
    (n.toNat ≥ 1 → s.i.toNat + n.toNat - 1 > 0xFFF →
      exec (.drw x y n) s = .next { s with fault := some .memRange }) ∧
    (s.i.toNat + 2 > 0xFFF → exec (.ldB x) s = .next { s with fault := some .memRange }) ∧
    (s.i.toNat + x.toNat > 0xFFF → exec (.dump x) s = .next { s with fault := some .memRange } ∧
      exec (.load x) s = .next { s with fault := some .memRange })

/-- 95_test_vectors.md S5, 47_index_memory.md R173 and R174: what a dump stored, a load from the same base brings back,
from any later state with that memory and that `I`. -/
def Obligations.DumpThenLoadReproduces : Prop :=
  ∀ (s : State) (x : Nibble), Memory.Wf s.mem → s.i.toNat + x.toNat ≤ 0xFFF → ∃ t, exec (.dump x) s = .next t ∧
    ∀ w : State, w.mem = t.mem → w.i = s.i → ∃ u, exec (.load x) w = .next u ∧
      ∀ k : Nibble, k.toNat ≤ x.toNat → u.getV k = s.getV k

/-- 20_memory.md R52, 70_reset_and_hazards.md R239: stores are seen by the very next fetch. After a register dump or a BCD
store, wherever its bytes fall, the next Step executes the word that its bytes and the untouched ones form at the next
address (`State.dumpedByte`, `State.bcdByte`). The premises leave out only that the store itself, or the next fetch,
faults. -/
def Obligations.NextFetchSeesStores : Prop :=
  ∀ (s : State) (x : Nibble), s.Running → Memory.Wf s.mem → s.pc ≠ 0xFFF → s.pcPlus 2 ≠ 0xFFF →
    (decodeWord (s.wordAt s.pc.toNat) = .dump x → s.i.toNat + x.toNat ≤ 0xFFF → ∃ t, step s = .next t ∧
      step t = exec (decodeWord (s.dumpedByte x (s.pcPlus 2).toNat ++ s.dumpedByte x ((s.pcPlus 2).toNat + 1))) t) ∧
    (decodeWord (s.wordAt s.pc.toNat) = .ldB x → s.i.toNat + 2 ≤ 0xFFF → ∃ t, step s = .next t ∧
      step t = exec (decodeWord (s.bcdByte x (s.pcPlus 2).toNat ++ s.bcdByte x ((s.pcPlus 2).toNat + 1))) t)

/-- Canonical memories that read the same everywhere are the same list, so that equal memories are equal data
(10_state.md R17; the list form is the model's, log entry 1). -/
def Obligations.CanonicalMemoryIsUnique : Prop :=
  ∀ m m' : List Host.Cell, Memory.Wf m → Memory.Wf m' → (∀ a, Memory.read m a = Memory.read m' a) → m = m'

/-! ## Host events -/

/-- 50_host_interface.md R183 (ignored while Faulted: the spec's decision D7): a Tick takes one from each timer that is
not 0, waiting or not, and changes nothing else. -/
def Obligations.TickCountsTimersDown : Prop :=
  ∀ s : State, s.fault = none → s.tick = { s with dt := s.tick.dt, st := s.tick.st } ∧
    s.tick.dt.toNat = s.dt.toNat - 1 ∧ s.tick.st.toNat = s.st.toNat - 1

/-- 50_host_interface.md R184, R185 (D7, D21): KeyPress sets `Key[k]` and nothing else, not even the latch; KeyRelease
clears it and, if a register waits, stores the pad index there and clears the latch. -/
def Obligations.KeyEventsUpdateKeysAndLatch : Prop :=
  ∀ (s : State) (k : Nibble), s.fault = none →
    (s.keyPress k = { s with key := (s.keyPress k).key } ∧
      ∀ j, (s.keyPress k).getKey j = if j = k then true else s.getKey j) ∧
    (s.keyRelease k = { s with key := (s.keyRelease k).key, v := (s.keyRelease k).v, wait := none } ∧
      (∀ j, (s.keyRelease k).getKey j = if j = k then false else s.getKey j) ∧
      ∀ r, ((s.keyRelease k).getV r).toNat = if s.wait = some r then k.toNat else (s.getV r).toNat)

/-- 10_state.md R22, 45_keys.md R152 (D20, D21), 50_host_interface.md R181: while a register waits, Steps, Ticks and
presses leave the latch, `PC` and the registers as they are; any release lifts the wait and stores the pad index, and
Reset, with whatever image, lifts it too. -/
def Obligations.WaitLiftedOnlyByReleaseOrReset : Prop :=
  ∀ (s : State) (r : Nibble), s.fault = none → s.wait = some r →
    (∀ b, stepWith b s = .next s) ∧ s.tick.wait = some r ∧ s.tick.pc = s.pc ∧ s.tick.v = s.v ∧
    (∀ k, (s.keyPress k).wait = some r ∧ (s.keyPress k).pc = s.pc ∧ (s.keyPress k).v = s.v) ∧
    (∀ k, (s.keyRelease k).wait = none ∧ (s.keyRelease k).pc = s.pc ∧ ((s.keyRelease k).getV r).toNat = k.toNat) ∧
    ∀ image : List Byte, (s.resetWith image).wait = none

/-- 60_exceptions.md R211 (the spec's decision D7): while Faulted, Step, Tick and key events change nothing; Reset leaves
the mode, by the length of the image alone. -/
def Obligations.FaultedIsFrozenUntilReset : Prop :=
  ∀ (s : State), s.fault ≠ none →
    step s = .next s ∧ (∀ r, stepWith r s = .next s) ∧ s.tick = s ∧ (∀ k, s.keyPress k = s ∧ s.keyRelease k = s) ∧
    ∀ image : List Byte, (s.resetWith image).fault = if image.length > 3584 then some .loadError else none

/-- 10_state.md R26, 50_host_interface.md R181: an accepted image lies verbatim from 0x200, the rest of memory and every
other component is as after Reset with an empty image; the random port is the host's (log entry 3). -/
def Obligations.ResetLoadsImage : Prop :=
  ∀ (s : State) (image : List Byte), image.length ≤ 3584 →
    s.resetWith image = { State.reset with
      mem := (s.resetWith image).mem, rndIn := s.rndIn, rndDraws := s.rndDraws } ∧
    Memory.Wf (s.resetWith image).mem ∧
    (∀ k < image.length, (s.resetWith image).byte (0x200 + k) = image.getD k 0) ∧
    ∀ a, a < 0x200 ∨ a ≥ 0x200 + image.length → (s.resetWith image).byte a = State.reset.byte a

/-- 60_exceptions.md R208, 10_state.md R26 (the spec's decision D16): an image above 3584 bytes is not stored and leaves
LOAD_ERROR with every other component of the block as for an empty image. That the random port and its counter, which are
the model's own fields, keep their values is the model's choice (log entry 3). -/
def Obligations.LongImageIsRejected : Prop :=
  ∀ (s : State) (image : List Byte), image.length > 3584 →
    s.resetWith image = { State.reset with fault := some .loadError, rndIn := s.rndIn, rndDraws := s.rndDraws }

/-- 10_state.md R26, 20_memory.md R42 (stack entries D18, font bytes D29; the random port's reset value is the model's
choice, log entry 3, and is not spoken of): what Reset leaves in every component. -/
def Obligations.ResetValuesOfEveryComponent : Prop :=
  (∀ r : Nibble, State.reset.getV r = 0 ∧ State.reset.getStack r = 0 ∧ State.reset.getKey r = false) ∧
  State.reset.i = 0x000 ∧ State.reset.pc = 0x200 ∧ State.reset.sp = 0 ∧ State.reset.dt = 0 ∧ State.reset.st = 0 ∧
  State.reset.wait = none ∧ State.reset.fault = none ∧ State.reset.mode = .running ∧
  (∀ px py, ¬ State.reset.Lit px py) ∧ (∀ a, a ≥ 80 → State.reset.byte a = 0) ∧
  (List.range 80).map State.reset.byte =
    [0xF0, 0x90, 0x90, 0x90, 0xF0, 0x20, 0x60, 0x20, 0x20, 0x70, 0xF0, 0x10, 0xF0, 0x80, 0xF0, 0xF0, 0x10, 0xF0, 0x10, 0xF0,
     0x90, 0x90, 0xF0, 0x10, 0x10, 0xF0, 0x80, 0xF0, 0x10, 0xF0, 0xF0, 0x80, 0xF0, 0x90, 0xF0, 0xF0, 0x10, 0x20, 0x40, 0x40,
     0xF0, 0x90, 0xF0, 0x90, 0xF0, 0xF0, 0x90, 0xF0, 0x10, 0xF0, 0xF0, 0x90, 0xF0, 0x90, 0x90, 0xE0, 0x90, 0xE0, 0x90, 0xE0,
     0xF0, 0x80, 0x80, 0x80, 0xF0, 0xE0, 0x90, 0x90, 0x90, 0xE0, 0xF0, 0x80, 0xF0, 0x80, 0xF0, 0xF0, 0x80, 0xF0, 0x80, 0x80]

/-- 50_host_interface.md R188 (the spec's decision D14): in one clock the Step comes before the Tick and the key event, and
of these two the order makes no difference. So `LD Vx, DT` reads the timer before it counts, `SKP` sees the key before the
event, `LD Vx, K` in the clock of a release is resolved at once; and a Step that faults, by whatever cause, suppresses the
Tick and the key event. Nothing is said of the random port after the clock (log entry 3). -/
def Obligations.SameClockOrder : Prop :=
  ∀ (s : State) (r : Option Byte),
    (∀ e, clockCycle ⟨false, r, true, e⟩ s = .next (s.tick.keyEvent e)) ∧
    (∀ t e, stepWith r s = .next t → clockCycle ⟨true, r, true, e⟩ s = .next (t.tick.keyEvent e) ∧
      t.tick.keyEvent e = (t.keyEvent e).tick) ∧
    (∀ t tick e, stepWith r s = .next t → t.fault ≠ none → clockCycle ⟨true, r, tick, e⟩ s = .next t) ∧
    (s.Running → s.pc = 0xFFF → ∀ tick e, ∃ u, clockCycle ⟨true, r, tick, e⟩ s = .next u ∧
      u = { s with fault := some .fetchRange, rndIn := u.rndIn }) ∧
    (s.Running → s.pc ≠ 0xFFF → ∀ x : Nibble,
      (decodeWord (s.wordAt s.pc.toNat) = .ldVxDt x → ∃ u, clockCycle ⟨true, r, true, none⟩ s = .next u ∧
        u.getV x = s.dt ∧ u.dt.toNat = s.dt.toNat - 1) ∧
      (decodeWord (s.wordAt s.pc.toNat) = .skp x → ∀ (k : Nibble) (down : Bool), (s.getV x).toNat = k.toNat →
        ∃ u, clockCycle ⟨true, r, false, some (down, k)⟩ s = .next u ∧
          u.pc = s.pcPlus (if s.getKey k then 4 else 2) ∧ u.getKey k = down) ∧
      (decodeWord (s.wordAt s.pc.toNat) = .ldVxK x → ∀ k : Nibble,
        ∃ u, clockCycle ⟨true, r, false, some (false, k)⟩ s = .next u ∧ u.wait = none ∧ (u.getV x).toNat = k.toNat))

/-- 50_host_interface.md R187 (D15, D17), 60_exceptions.md R201 (codes D8): the outputs, as functions of the state. -/
def Obligations.OutputsShowTheState : Prop :=
  ∀ s : State,
    (∀ (x : Fin 64) (y : Fin 32), s.fbBit (BitVec.ofNat 11 (64 * y.val + x.val)) = s.pixel x y) ∧
    (s.snd = true ↔ s.st ≠ 0) ∧ (s.waiting = true ↔ s.wait ≠ none) ∧ (∀ r, s.wait = some r → s.waitReg = r) ∧
    (s.wait = none → s.waitReg = 0) ∧ (s.faulted = true ↔ s.fault ≠ none) ∧ (s.faultCause = 0 ↔ s.fault = none) ∧
    (s.faultCause = 1 ↔ s.fault = some .fetchRange) ∧ (s.faultCause = 2 ↔ s.fault = some .memRange) ∧
    (s.faultCause = 3 ↔ s.fault = some .stackOverflow) ∧ (s.faultCause = 4 ↔ s.fault = some .stackUnderflow) ∧
    (s.faultCause = 5 ↔ s.fault = some .keyIndex) ∧ (s.faultCause = 6 ↔ s.fault = some .entropy) ∧
    (s.faultCause = 7 ↔ s.fault = some .loadError) ∧ s.pcOut = s.pc

/-! ## The whole machine -/

/-- 10_state.md R15, R17, R24: every Step keeps the invariant: canonical memory inside the address space, no wait while
Faulted, `Stack[0]` never written. -/
def Obligations.StepKeepsInvariant : Prop :=
  ∀ s t : State, s.Inv → step s = .next t → t.Inv

/-- The invariant holds after Reset, with whatever image (10_state.md R26). -/
def Obligations.InvariantHoldsAtReset : Prop :=
  State.reset.Inv ∧ ∀ (s : State) (image : List Byte), (s.resetWith image).Inv

/-- 50_host_interface.md R180: every event of the host keeps the invariant. -/
def Obligations.EventsKeepInvariant : Prop :=
  ∀ (e : Event) (s t : State), s.Inv → applyEvent e s = .next t → t.Inv

/-- 70_reset_and_hazards.md R233 (the spec's decision D23): a state is quiescent exactly when it is Faulted, or awaits a
key, or is Running at an address below 0xFFF that holds a jump to itself, in the `1NNN` or the `BNNN` form. -/
def Obligations.QuiescentStatesAreThese : Prop :=
  ∀ s : State, s.Quiescent ↔ s.fault ≠ none ∨ s.wait ≠ none ∨ s.EndedWell

/-- 60_exceptions.md R201, R209, R210 (the spec's decisions D6, D8): an instruction raises a cause exactly on the cause's
condition, and then nothing but the fault register changes. -/
def Obligations.FaultsExactlyOnTheirConditions : Prop :=
  ∀ (i : Instr) (s : State) (c : Fault), s.fault = none →
    ((∃ t, exec i s = .next t ∧ t.fault = some c) ↔ s.RaisesOn i c) ∧
    ∀ t, exec i s = .next t → t.fault = some c → t = { s with fault := some c }

/-- 10_state.md R27: the components of the state an instruction may write, one by one; no instruction writes `Key`. Which
general registers it may write is `writesRegister`, which causes it may raise is `State.RaisesOn`; `PC` moves only where no
fault is raised, and off the line of the program only by the four flow instructions. The last clause is about the model's
own fields of the random port (log entry 3). -/
def Obligations.OnlyTheseInstructionsWrite : Prop :=
  ∀ (i : Instr) (s t : State), exec i s = .next t →
    (t.mem ≠ s.mem → (∃ x, i = .ldB x) ∨ ∃ x, i = .dump x) ∧
    (t.v ≠ s.v → ∃ r, writesRegister i r = true) ∧
    (t.i ≠ s.i → (∃ n, i = .ldI n) ∨ (∃ x, i = .addI x) ∨ (∃ x, i = .ldF x) ∨ (∃ x, i = .dump x) ∨ ∃ x, i = .load x) ∧
    (t.pc ≠ s.pc → t.fault = s.fault ∧ (t.pc = s.pcPlus 2 ∨ t.pc = s.pcPlus 4 ∨
      i = .ret ∨ (∃ n, i = .jp n) ∨ (∃ n, i = .call n) ∨ ∃ n, i = .jpV0 n)) ∧
    (t.stack ≠ s.stack → ∃ n, i = .call n) ∧ (t.sp ≠ s.sp → (∃ n, i = .call n) ∨ i = .ret) ∧
    (t.disp ≠ s.disp → i = .cls ∨ ∃ x y n, i = .drw x y n) ∧
    (t.dt ≠ s.dt → ∃ x, i = .ldDtVx x) ∧ (t.st ≠ s.st → ∃ x, i = .ldStVx x) ∧ t.key = s.key ∧
    (t.wait ≠ s.wait → ∃ x, i = .ldVxK x) ∧
    (t.fault ≠ s.fault → ∃ c, t.fault = some c ∧ s.RaisesOn i c) ∧
    (t.rndIn ≠ s.rndIn ∨ t.rndDraws ≠ s.rndDraws → ∃ x nn, i = .rnd x nn)

/-- 10_state.md R12, R29 (the flag is written last: D10): an instruction writes no general register but its destination
and, if it has a flag output, VF; so VF survives every other instruction. -/
def Obligations.RegistersWrittenAreDestinations : Prop :=
  ∀ (i : Instr) (s t : State) (r : Nibble), exec i s = .next t → writesRegister i r = false → t.getV r = s.getV r

/-- 42_immediate.md R113, 50_host_interface.md R186 (D13): no instruction but `RND` draws from or depends on the random
port. -/
def Obligations.OnlyRndReadsTheRandomPort : Prop :=
  ∀ (i : Instr) (s : State) (p : Option Byte), (∀ x nn, i ≠ .rnd x nn) →
    exec i (s.present p) = Result.andThen (exec i s) fun t => .next (t.present p)
end

