-- ==== Sys2Proof/Laws/State.lean ====
section
/-! SUPPORT. One lemma per field per update of the state, and the read-after-write laws of registers, stack, keys and
display cells: no later proof unfolds a record update. -/

namespace Sys2Proof.Machine

@[simp] theorem State.setV_mem (s : State) (x : Nibble) (b : Byte) : (s.setV x b).mem = s.mem := rfl
@[simp] theorem State.setV_v (s : State) (x : Nibble) (b : Byte) : (s.setV x b).v = s.v.set x.toNat b x.isLt := rfl
@[simp] theorem State.setV_i (s : State) (x : Nibble) (b : Byte) : (s.setV x b).i = s.i := rfl
@[simp] theorem State.setV_pc (s : State) (x : Nibble) (b : Byte) : (s.setV x b).pc = s.pc := rfl
@[simp] theorem State.setV_stack (s : State) (x : Nibble) (b : Byte) : (s.setV x b).stack = s.stack := rfl
@[simp] theorem State.setV_sp (s : State) (x : Nibble) (b : Byte) : (s.setV x b).sp = s.sp := rfl
@[simp] theorem State.setV_disp (s : State) (x : Nibble) (b : Byte) : (s.setV x b).disp = s.disp := rfl
@[simp] theorem State.setV_dt (s : State) (x : Nibble) (b : Byte) : (s.setV x b).dt = s.dt := rfl
@[simp] theorem State.setV_st (s : State) (x : Nibble) (b : Byte) : (s.setV x b).st = s.st := rfl
@[simp] theorem State.setV_key (s : State) (x : Nibble) (b : Byte) : (s.setV x b).key = s.key := rfl
@[simp] theorem State.setV_wait (s : State) (x : Nibble) (b : Byte) : (s.setV x b).wait = s.wait := rfl
@[simp] theorem State.setV_fault (s : State) (x : Nibble) (b : Byte) : (s.setV x b).fault = s.fault := rfl
@[simp] theorem State.setV_rndIn (s : State) (x : Nibble) (b : Byte) : (s.setV x b).rndIn = s.rndIn := rfl
@[simp] theorem State.setV_rndDraws (s : State) (x : Nibble) (b : Byte) : (s.setV x b).rndDraws = s.rndDraws := rfl

@[simp] theorem State.setStack_mem (s : State) (k : Nibble) (a : Addr) : (s.setStack k a).mem = s.mem := rfl
@[simp] theorem State.setStack_v (s : State) (k : Nibble) (a : Addr) : (s.setStack k a).v = s.v := rfl
@[simp] theorem State.setStack_i (s : State) (k : Nibble) (a : Addr) : (s.setStack k a).i = s.i := rfl
@[simp] theorem State.setStack_pc (s : State) (k : Nibble) (a : Addr) : (s.setStack k a).pc = s.pc := rfl
@[simp] theorem State.setStack_stack (s : State) (k : Nibble) (a : Addr) : (s.setStack k a).stack = s.stack.set k.toNat a k.isLt := rfl
@[simp] theorem State.setStack_sp (s : State) (k : Nibble) (a : Addr) : (s.setStack k a).sp = s.sp := rfl
@[simp] theorem State.setStack_disp (s : State) (k : Nibble) (a : Addr) : (s.setStack k a).disp = s.disp := rfl
@[simp] theorem State.setStack_dt (s : State) (k : Nibble) (a : Addr) : (s.setStack k a).dt = s.dt := rfl
@[simp] theorem State.setStack_st (s : State) (k : Nibble) (a : Addr) : (s.setStack k a).st = s.st := rfl
@[simp] theorem State.setStack_key (s : State) (k : Nibble) (a : Addr) : (s.setStack k a).key = s.key := rfl
@[simp] theorem State.setStack_wait (s : State) (k : Nibble) (a : Addr) : (s.setStack k a).wait = s.wait := rfl
@[simp] theorem State.setStack_fault (s : State) (k : Nibble) (a : Addr) : (s.setStack k a).fault = s.fault := rfl
@[simp] theorem State.setStack_rndIn (s : State) (k : Nibble) (a : Addr) : (s.setStack k a).rndIn = s.rndIn := rfl
@[simp] theorem State.setStack_rndDraws (s : State) (k : Nibble) (a : Addr) : (s.setStack k a).rndDraws = s.rndDraws := rfl

@[simp] theorem State.setKey_mem (s : State) (k : Nibble) (b : Bool) : (s.setKey k b).mem = s.mem := rfl
@[simp] theorem State.setKey_v (s : State) (k : Nibble) (b : Bool) : (s.setKey k b).v = s.v := rfl
@[simp] theorem State.setKey_i (s : State) (k : Nibble) (b : Bool) : (s.setKey k b).i = s.i := rfl
@[simp] theorem State.setKey_pc (s : State) (k : Nibble) (b : Bool) : (s.setKey k b).pc = s.pc := rfl
@[simp] theorem State.setKey_stack (s : State) (k : Nibble) (b : Bool) : (s.setKey k b).stack = s.stack := rfl
@[simp] theorem State.setKey_sp (s : State) (k : Nibble) (b : Bool) : (s.setKey k b).sp = s.sp := rfl
@[simp] theorem State.setKey_disp (s : State) (k : Nibble) (b : Bool) : (s.setKey k b).disp = s.disp := rfl
@[simp] theorem State.setKey_dt (s : State) (k : Nibble) (b : Bool) : (s.setKey k b).dt = s.dt := rfl
@[simp] theorem State.setKey_st (s : State) (k : Nibble) (b : Bool) : (s.setKey k b).st = s.st := rfl
@[simp] theorem State.setKey_key (s : State) (k : Nibble) (b : Bool) : (s.setKey k b).key = s.key.set k.toNat b k.isLt := rfl
@[simp] theorem State.setKey_wait (s : State) (k : Nibble) (b : Bool) : (s.setKey k b).wait = s.wait := rfl
@[simp] theorem State.setKey_fault (s : State) (k : Nibble) (b : Bool) : (s.setKey k b).fault = s.fault := rfl
@[simp] theorem State.setKey_rndIn (s : State) (k : Nibble) (b : Bool) : (s.setKey k b).rndIn = s.rndIn := rfl
@[simp] theorem State.setKey_rndDraws (s : State) (k : Nibble) (b : Bool) : (s.setKey k b).rndDraws = s.rndDraws := rfl

@[simp] theorem State.setByte_mem (s : State) (a : Nat) (b : Byte) : (s.setByte a b).mem = Memory.write s.mem a b := rfl
@[simp] theorem State.setByte_v (s : State) (a : Nat) (b : Byte) : (s.setByte a b).v = s.v := rfl
@[simp] theorem State.setByte_i (s : State) (a : Nat) (b : Byte) : (s.setByte a b).i = s.i := rfl
@[simp] theorem State.setByte_pc (s : State) (a : Nat) (b : Byte) : (s.setByte a b).pc = s.pc := rfl
@[simp] theorem State.setByte_stack (s : State) (a : Nat) (b : Byte) : (s.setByte a b).stack = s.stack := rfl
@[simp] theorem State.setByte_sp (s : State) (a : Nat) (b : Byte) : (s.setByte a b).sp = s.sp := rfl
@[simp] theorem State.setByte_disp (s : State) (a : Nat) (b : Byte) : (s.setByte a b).disp = s.disp := rfl
@[simp] theorem State.setByte_dt (s : State) (a : Nat) (b : Byte) : (s.setByte a b).dt = s.dt := rfl
@[simp] theorem State.setByte_st (s : State) (a : Nat) (b : Byte) : (s.setByte a b).st = s.st := rfl
@[simp] theorem State.setByte_key (s : State) (a : Nat) (b : Byte) : (s.setByte a b).key = s.key := rfl
@[simp] theorem State.setByte_wait (s : State) (a : Nat) (b : Byte) : (s.setByte a b).wait = s.wait := rfl
@[simp] theorem State.setByte_fault (s : State) (a : Nat) (b : Byte) : (s.setByte a b).fault = s.fault := rfl
@[simp] theorem State.setByte_rndIn (s : State) (a : Nat) (b : Byte) : (s.setByte a b).rndIn = s.rndIn := rfl
@[simp] theorem State.setByte_rndDraws (s : State) (a : Nat) (b : Byte) : (s.setByte a b).rndDraws = s.rndDraws := rfl

@[simp] theorem State.raise_mem (s : State) (c : Fault) : (s.raise c).mem = s.mem := rfl
@[simp] theorem State.raise_v (s : State) (c : Fault) : (s.raise c).v = s.v := rfl
@[simp] theorem State.raise_i (s : State) (c : Fault) : (s.raise c).i = s.i := rfl
@[simp] theorem State.raise_pc (s : State) (c : Fault) : (s.raise c).pc = s.pc := rfl
@[simp] theorem State.raise_stack (s : State) (c : Fault) : (s.raise c).stack = s.stack := rfl
@[simp] theorem State.raise_sp (s : State) (c : Fault) : (s.raise c).sp = s.sp := rfl
@[simp] theorem State.raise_disp (s : State) (c : Fault) : (s.raise c).disp = s.disp := rfl
@[simp] theorem State.raise_dt (s : State) (c : Fault) : (s.raise c).dt = s.dt := rfl
@[simp] theorem State.raise_st (s : State) (c : Fault) : (s.raise c).st = s.st := rfl
@[simp] theorem State.raise_key (s : State) (c : Fault) : (s.raise c).key = s.key := rfl
@[simp] theorem State.raise_wait (s : State) (c : Fault) : (s.raise c).wait = s.wait := rfl
@[simp] theorem State.raise_fault (s : State) (c : Fault) : (s.raise c).fault = some c := rfl
@[simp] theorem State.raise_rndIn (s : State) (c : Fault) : (s.raise c).rndIn = s.rndIn := rfl
@[simp] theorem State.raise_rndDraws (s : State) (c : Fault) : (s.raise c).rndDraws = s.rndDraws := rfl

@[simp] theorem State.advance_mem (s : State) : (s.advance).mem = s.mem := rfl
@[simp] theorem State.advance_v (s : State) : (s.advance).v = s.v := rfl
@[simp] theorem State.advance_i (s : State) : (s.advance).i = s.i := rfl
@[simp] theorem State.advance_pc (s : State) : (s.advance).pc = s.pc + 2 := rfl
@[simp] theorem State.advance_stack (s : State) : (s.advance).stack = s.stack := rfl
@[simp] theorem State.advance_sp (s : State) : (s.advance).sp = s.sp := rfl
@[simp] theorem State.advance_disp (s : State) : (s.advance).disp = s.disp := rfl
@[simp] theorem State.advance_dt (s : State) : (s.advance).dt = s.dt := rfl
@[simp] theorem State.advance_st (s : State) : (s.advance).st = s.st := rfl
@[simp] theorem State.advance_key (s : State) : (s.advance).key = s.key := rfl
@[simp] theorem State.advance_wait (s : State) : (s.advance).wait = s.wait := rfl
@[simp] theorem State.advance_fault (s : State) : (s.advance).fault = s.fault := rfl
@[simp] theorem State.advance_rndIn (s : State) : (s.advance).rndIn = s.rndIn := rfl
@[simp] theorem State.advance_rndDraws (s : State) : (s.advance).rndDraws = s.rndDraws := rfl

@[simp] theorem State.jump_mem (s : State) (t : Addr) : (s.jump t).mem = s.mem := rfl
@[simp] theorem State.jump_v (s : State) (t : Addr) : (s.jump t).v = s.v := rfl
@[simp] theorem State.jump_i (s : State) (t : Addr) : (s.jump t).i = s.i := rfl
@[simp] theorem State.jump_pc (s : State) (t : Addr) : (s.jump t).pc = t := rfl
@[simp] theorem State.jump_stack (s : State) (t : Addr) : (s.jump t).stack = s.stack := rfl
@[simp] theorem State.jump_sp (s : State) (t : Addr) : (s.jump t).sp = s.sp := rfl
@[simp] theorem State.jump_disp (s : State) (t : Addr) : (s.jump t).disp = s.disp := rfl
@[simp] theorem State.jump_dt (s : State) (t : Addr) : (s.jump t).dt = s.dt := rfl
@[simp] theorem State.jump_st (s : State) (t : Addr) : (s.jump t).st = s.st := rfl
@[simp] theorem State.jump_key (s : State) (t : Addr) : (s.jump t).key = s.key := rfl
@[simp] theorem State.jump_wait (s : State) (t : Addr) : (s.jump t).wait = s.wait := rfl
@[simp] theorem State.jump_fault (s : State) (t : Addr) : (s.jump t).fault = s.fault := rfl
@[simp] theorem State.jump_rndIn (s : State) (t : Addr) : (s.jump t).rndIn = s.rndIn := rfl
@[simp] theorem State.jump_rndDraws (s : State) (t : Addr) : (s.jump t).rndDraws = s.rndDraws := rfl

@[simp] theorem State.bumpIndex_mem (s : State) (x : Nibble) : (s.bumpIndex x).mem = s.mem := rfl
@[simp] theorem State.bumpIndex_v (s : State) (x : Nibble) : (s.bumpIndex x).v = s.v := rfl
@[simp] theorem State.bumpIndex_i (s : State) (x : Nibble) : (s.bumpIndex x).i = s.i + x.setWidth 12 + 1 := rfl
@[simp] theorem State.bumpIndex_pc (s : State) (x : Nibble) : (s.bumpIndex x).pc = s.pc := rfl
@[simp] theorem State.bumpIndex_stack (s : State) (x : Nibble) : (s.bumpIndex x).stack = s.stack := rfl
@[simp] theorem State.bumpIndex_sp (s : State) (x : Nibble) : (s.bumpIndex x).sp = s.sp := rfl
@[simp] theorem State.bumpIndex_disp (s : State) (x : Nibble) : (s.bumpIndex x).disp = s.disp := rfl
@[simp] theorem State.bumpIndex_dt (s : State) (x : Nibble) : (s.bumpIndex x).dt = s.dt := rfl
@[simp] theorem State.bumpIndex_st (s : State) (x : Nibble) : (s.bumpIndex x).st = s.st := rfl
@[simp] theorem State.bumpIndex_key (s : State) (x : Nibble) : (s.bumpIndex x).key = s.key := rfl
@[simp] theorem State.bumpIndex_wait (s : State) (x : Nibble) : (s.bumpIndex x).wait = s.wait := rfl
@[simp] theorem State.bumpIndex_fault (s : State) (x : Nibble) : (s.bumpIndex x).fault = s.fault := rfl
@[simp] theorem State.bumpIndex_rndIn (s : State) (x : Nibble) : (s.bumpIndex x).rndIn = s.rndIn := rfl
@[simp] theorem State.bumpIndex_rndDraws (s : State) (x : Nibble) : (s.bumpIndex x).rndDraws = s.rndDraws := rfl

@[simp] theorem State.present_mem (s : State) (r : Option Byte) : (s.present r).mem = s.mem := rfl
@[simp] theorem State.present_v (s : State) (r : Option Byte) : (s.present r).v = s.v := rfl
@[simp] theorem State.present_i (s : State) (r : Option Byte) : (s.present r).i = s.i := rfl
@[simp] theorem State.present_pc (s : State) (r : Option Byte) : (s.present r).pc = s.pc := rfl
@[simp] theorem State.present_stack (s : State) (r : Option Byte) : (s.present r).stack = s.stack := rfl
@[simp] theorem State.present_sp (s : State) (r : Option Byte) : (s.present r).sp = s.sp := rfl
@[simp] theorem State.present_disp (s : State) (r : Option Byte) : (s.present r).disp = s.disp := rfl
@[simp] theorem State.present_dt (s : State) (r : Option Byte) : (s.present r).dt = s.dt := rfl
@[simp] theorem State.present_st (s : State) (r : Option Byte) : (s.present r).st = s.st := rfl
@[simp] theorem State.present_key (s : State) (r : Option Byte) : (s.present r).key = s.key := rfl
@[simp] theorem State.present_wait (s : State) (r : Option Byte) : (s.present r).wait = s.wait := rfl
@[simp] theorem State.present_fault (s : State) (r : Option Byte) : (s.present r).fault = s.fault := rfl
@[simp] theorem State.present_rndIn (s : State) (r : Option Byte) : (s.present r).rndIn = r := rfl
@[simp] theorem State.present_rndDraws (s : State) (r : Option Byte) : (s.present r).rndDraws = s.rndDraws := rfl

@[simp] theorem State.drawn_mem (s : State) : (s.drawn).mem = s.mem := rfl
@[simp] theorem State.drawn_v (s : State) : (s.drawn).v = s.v := rfl
@[simp] theorem State.drawn_i (s : State) : (s.drawn).i = s.i := rfl
@[simp] theorem State.drawn_pc (s : State) : (s.drawn).pc = s.pc := rfl
@[simp] theorem State.drawn_stack (s : State) : (s.drawn).stack = s.stack := rfl
@[simp] theorem State.drawn_sp (s : State) : (s.drawn).sp = s.sp := rfl
@[simp] theorem State.drawn_disp (s : State) : (s.drawn).disp = s.disp := rfl
@[simp] theorem State.drawn_dt (s : State) : (s.drawn).dt = s.dt := rfl
@[simp] theorem State.drawn_st (s : State) : (s.drawn).st = s.st := rfl
@[simp] theorem State.drawn_key (s : State) : (s.drawn).key = s.key := rfl
@[simp] theorem State.drawn_wait (s : State) : (s.drawn).wait = s.wait := rfl
@[simp] theorem State.drawn_fault (s : State) : (s.drawn).fault = s.fault := rfl
@[simp] theorem State.drawn_rndIn (s : State) : (s.drawn).rndIn = Config.rndInput s.rndDraws := rfl
@[simp] theorem State.drawn_rndDraws (s : State) : (s.drawn).rndDraws = s.rndDraws + 1 := rfl

@[simp] theorem State.skipIf_mem (s : State) (c : Bool) : (s.skipIf c).mem = s.mem := by
  cases c <;> rfl
@[simp] theorem State.skipIf_v (s : State) (c : Bool) : (s.skipIf c).v = s.v := by
  cases c <;> rfl
@[simp] theorem State.skipIf_i (s : State) (c : Bool) : (s.skipIf c).i = s.i := by
  cases c <;> rfl
@[simp] theorem State.skipIf_pc (s : State) (c : Bool) :
    (s.skipIf c).pc = if c = true then s.pc + 4 else s.pc + 2 := by
  cases c <;> rfl
@[simp] theorem State.skipIf_stack (s : State) (c : Bool) : (s.skipIf c).stack = s.stack := by
  cases c <;> rfl
@[simp] theorem State.skipIf_sp (s : State) (c : Bool) : (s.skipIf c).sp = s.sp := by
  cases c <;> rfl
@[simp] theorem State.skipIf_disp (s : State) (c : Bool) : (s.skipIf c).disp = s.disp := by
  cases c <;> rfl
@[simp] theorem State.skipIf_dt (s : State) (c : Bool) : (s.skipIf c).dt = s.dt := by
  cases c <;> rfl
@[simp] theorem State.skipIf_st (s : State) (c : Bool) : (s.skipIf c).st = s.st := by
  cases c <;> rfl
@[simp] theorem State.skipIf_key (s : State) (c : Bool) : (s.skipIf c).key = s.key := by
  cases c <;> rfl
@[simp] theorem State.skipIf_wait (s : State) (c : Bool) : (s.skipIf c).wait = s.wait := by
  cases c <;> rfl
@[simp] theorem State.skipIf_fault (s : State) (c : Bool) : (s.skipIf c).fault = s.fault := by
  cases c <;> rfl
@[simp] theorem State.skipIf_rndIn (s : State) (c : Bool) : (s.skipIf c).rndIn = s.rndIn := by
  cases c <;> rfl
@[simp] theorem State.skipIf_rndDraws (s : State) (c : Bool) : (s.skipIf c).rndDraws = s.rndDraws := by
  cases c <;> rfl

/-! Reads after writes. -/

theorem State.getV_setV (s : State) (x y : Nibble) (b : Byte) :
    (s.setV x b).getV y = if x = y then b else s.getV y := by
  simp only [State.getV, State.setV, Vector.getElem_set, BitVec.toNat_inj]

@[simp] theorem State.getV_setV_self (s : State) (x : Nibble) (b : Byte) : (s.setV x b).getV x = b := by
  simp [State.getV_setV]

theorem State.getStack_setStack (s : State) (k j : Nibble) (a : Addr) :
    (s.setStack k a).getStack j = if k = j then a else s.getStack j := by
  simp only [State.getStack, State.setStack, Vector.getElem_set, BitVec.toNat_inj]

theorem State.getKey_setKey (s : State) (k j : Nibble) (b : Bool) :
    (s.setKey k b).getKey j = if k = j then b else s.getKey j := by
  simp only [State.getKey, State.setKey, Vector.getElem_set, BitVec.toNat_inj]

theorem dispGet_dispSet (d : Display) (x y x' y' : Nat) (b : Bool) :
    dispGet (dispSet d x y b) x' y' = if x % 64 = x' % 64 ∧ y % 32 = y' % 32 then b else dispGet d x' y' := by
  simp only [dispGet, dispSet, Vector.getElem_set]
  by_cases hy : y % 32 = y' % 32
  · simp [hy, Vector.getElem_set]
  · simp [hy]

@[simp] theorem dispGet_dispClear (x y : Nat) : dispGet dispClear x y = false := by
  simp [dispGet, dispClear]

/-! Reads that an update of another field leaves alone. -/

@[simp] theorem State.getStack_setV (s : State) (x : Nibble) (b : Byte) (k' : Nibble) :
    (s.setV x b).getStack k' = s.getStack k' := rfl
@[simp] theorem State.getKey_setV (s : State) (x : Nibble) (b : Byte) (k' : Nibble) :
    (s.setV x b).getKey k' = s.getKey k' := rfl
@[simp] theorem State.byte_setV (s : State) (x : Nibble) (b : Byte) (a' : Nat) :
    (s.setV x b).byte a' = s.byte a' := rfl
@[simp] theorem State.getV_setStack (s : State) (k : Nibble) (a : Addr) (x' : Nibble) :
    (s.setStack k a).getV x' = s.getV x' := rfl
@[simp] theorem State.getKey_setStack (s : State) (k : Nibble) (a : Addr) (k' : Nibble) :
    (s.setStack k a).getKey k' = s.getKey k' := rfl
@[simp] theorem State.byte_setStack (s : State) (k : Nibble) (a : Addr) (a' : Nat) :
    (s.setStack k a).byte a' = s.byte a' := rfl
@[simp] theorem State.getV_setKey (s : State) (k : Nibble) (b : Bool) (x' : Nibble) :
    (s.setKey k b).getV x' = s.getV x' := rfl
@[simp] theorem State.getStack_setKey (s : State) (k : Nibble) (b : Bool) (k' : Nibble) :
    (s.setKey k b).getStack k' = s.getStack k' := rfl
@[simp] theorem State.byte_setKey (s : State) (k : Nibble) (b : Bool) (a' : Nat) :
    (s.setKey k b).byte a' = s.byte a' := rfl
@[simp] theorem State.getV_setByte (s : State) (a : Nat) (b : Byte) (x' : Nibble) :
    (s.setByte a b).getV x' = s.getV x' := rfl
@[simp] theorem State.getStack_setByte (s : State) (a : Nat) (b : Byte) (k' : Nibble) :
    (s.setByte a b).getStack k' = s.getStack k' := rfl
@[simp] theorem State.getKey_setByte (s : State) (a : Nat) (b : Byte) (k' : Nibble) :
    (s.setByte a b).getKey k' = s.getKey k' := rfl
@[simp] theorem State.getV_raise (s : State) (c : Fault) (x' : Nibble) :
    (s.raise c).getV x' = s.getV x' := rfl
@[simp] theorem State.getStack_raise (s : State) (c : Fault) (k' : Nibble) :
    (s.raise c).getStack k' = s.getStack k' := rfl
@[simp] theorem State.getKey_raise (s : State) (c : Fault) (k' : Nibble) :
    (s.raise c).getKey k' = s.getKey k' := rfl
@[simp] theorem State.byte_raise (s : State) (c : Fault) (a' : Nat) :
    (s.raise c).byte a' = s.byte a' := rfl
@[simp] theorem State.getV_advance (s : State) (x' : Nibble) :
    (s.advance).getV x' = s.getV x' := rfl
@[simp] theorem State.getStack_advance (s : State) (k' : Nibble) :
    (s.advance).getStack k' = s.getStack k' := rfl
@[simp] theorem State.getKey_advance (s : State) (k' : Nibble) :
    (s.advance).getKey k' = s.getKey k' := rfl
@[simp] theorem State.byte_advance (s : State) (a' : Nat) :
    (s.advance).byte a' = s.byte a' := rfl
@[simp] theorem State.getV_jump (s : State) (t : Addr) (x' : Nibble) :
    (s.jump t).getV x' = s.getV x' := rfl
@[simp] theorem State.getStack_jump (s : State) (t : Addr) (k' : Nibble) :
    (s.jump t).getStack k' = s.getStack k' := rfl
@[simp] theorem State.getKey_jump (s : State) (t : Addr) (k' : Nibble) :
    (s.jump t).getKey k' = s.getKey k' := rfl
@[simp] theorem State.byte_jump (s : State) (t : Addr) (a' : Nat) :
    (s.jump t).byte a' = s.byte a' := rfl
@[simp] theorem State.getV_bumpIndex (s : State) (x : Nibble) (x' : Nibble) :
    (s.bumpIndex x).getV x' = s.getV x' := rfl
@[simp] theorem State.getStack_bumpIndex (s : State) (x : Nibble) (k' : Nibble) :
    (s.bumpIndex x).getStack k' = s.getStack k' := rfl
@[simp] theorem State.getKey_bumpIndex (s : State) (x : Nibble) (k' : Nibble) :
    (s.bumpIndex x).getKey k' = s.getKey k' := rfl
@[simp] theorem State.byte_bumpIndex (s : State) (x : Nibble) (a' : Nat) :
    (s.bumpIndex x).byte a' = s.byte a' := rfl
@[simp] theorem State.getV_present (s : State) (r : Option Byte) (x' : Nibble) :
    (s.present r).getV x' = s.getV x' := rfl
@[simp] theorem State.getStack_present (s : State) (r : Option Byte) (k' : Nibble) :
    (s.present r).getStack k' = s.getStack k' := rfl
@[simp] theorem State.getKey_present (s : State) (r : Option Byte) (k' : Nibble) :
    (s.present r).getKey k' = s.getKey k' := rfl
@[simp] theorem State.byte_present (s : State) (r : Option Byte) (a' : Nat) :
    (s.present r).byte a' = s.byte a' := rfl
@[simp] theorem State.getV_drawn (s : State) (x' : Nibble) :
    (s.drawn).getV x' = s.getV x' := rfl
@[simp] theorem State.getStack_drawn (s : State) (k' : Nibble) :
    (s.drawn).getStack k' = s.getStack k' := rfl
@[simp] theorem State.getKey_drawn (s : State) (k' : Nibble) :
    (s.drawn).getKey k' = s.getKey k' := rfl
@[simp] theorem State.byte_drawn (s : State) (a' : Nat) :
    (s.drawn).byte a' = s.byte a' := rfl

/-- Two states agree when all their fields do. -/
theorem State.eq_of_fields {s t : State} (hm : s.mem = t.mem) (hv : s.v = t.v) (hi : s.i = t.i) (hpc : s.pc = t.pc)
    (hstack : s.stack = t.stack) (hsp : s.sp = t.sp) (hdisp : s.disp = t.disp) (hdt : s.dt = t.dt)
    (hst : s.st = t.st) (hkey : s.key = t.key) (hwait : s.wait = t.wait) (hfault : s.fault = t.fault)
    (hin : s.rndIn = t.rndIn) (hn : s.rndDraws = t.rndDraws) : s = t := by
  cases s; cases t; simp_all

end Sys2Proof.Machine
end

