-- ==== Sys2Proof/Laws/Blit.lean ====
section
/-! SUPPORT. The sprite blit cell by cell: a draw flips exactly the cells under a 1 bit of the sprite, and collides
exactly when one of them was lit. -/

namespace Sys2Proof.Machine

/-- How far a coordinate lies past the sprite's edge, going round the screen of size `w`. -/
def wrapOffset (w origin p : Nat) : Nat := (p + (w - origin % w)) % w

/-- The bit of one sprite byte that falls on column `px`. -/
def rowBit (x0 : Nat) (b : Byte) (px : Nat) : Bool :=
  decide (wrapOffset 64 x0 px < 8) && b.getLsbD (7 - wrapOffset 64 x0 px)

/-- The bit of the sprite that falls on the cell `(px, py)`. -/
def spriteBit (x0 y0 : Nat) (rows : List Byte) (px py : Nat) : Bool :=
  decide (wrapOffset 32 y0 py < rows.length) && rowBit x0 (rows.getD (wrapOffset 32 y0 py) 0) px

/-- One sprite bit: the cell is flipped under a 1 bit, and every other cell is as before. -/
theorem blitBit_get (c : Canvas) (x y : Nat) (bit : Bool) (px py : Nat) :
    dispGet (blitBit c x y bit).1 px py =
      (dispGet c.1 px py ^^ (bit && decide (x % 64 = px % 64) && decide (y % 32 = py % 32))) := by
  cases bit
  · simp [blitBit]
  · simp only [blitBit, if_true, dispGet_dispSet, Bool.true_and]
    by_cases h : x % 64 = px % 64 ∧ y % 32 = py % 32
    · have hd : dispGet c.1 x y = dispGet c.1 px py := by simp only [dispGet, h.1, h.2]
      simp [h, hd]
    · rw [if_neg h]
      have hf : (decide (x % 64 = px % 64) && decide (y % 32 = py % 32)) = false := by
        rw [← Bool.decide_and]; exact decide_eq_false h
      rw [hf, Bool.xor_false]

theorem blitBit_hit (c : Canvas) (x y : Nat) (bit : Bool) :
    (blitBit c x y bit).2 = (c.2 || (bit && dispGet c.1 x y)) := by
  cases bit <;> simp [blitBit]

/-- The first `n` columns of one sprite byte. -/
def blitCols (c : Canvas) (x0 y : Nat) (b : Byte) (n : Nat) : Canvas :=
  (List.range n).foldl (fun acc col => blitBit acc (x0 + col) y (b.getLsbD (7 - col))) c

theorem blitCols_succ (c : Canvas) (x0 y : Nat) (b : Byte) (n : Nat) :
    blitCols c x0 y b (n + 1) = blitBit (blitCols c x0 y b n) (x0 + n) y (b.getLsbD (7 - n)) := by
  simp [blitCols, List.range_succ]

theorem wrapOffset_lt {w : Nat} (hw : 0 < w) (origin p : Nat) : wrapOffset w origin p < w := Nat.mod_lt _ hw

/-- The cell `n` past the origin is the one whose offset is `n`. -/
theorem wrapOffset_eq_iff {w n : Nat} (hn : n < w) (origin p : Nat) :
    (origin + n) % w = p % w ↔ wrapOffset w origin p = n := by
  have hw : 0 < w := by omega
  unfold wrapOffset
  have h1 := Nat.mod_lt origin hw
  have h2 := Nat.mod_lt p hw
  rw [Nat.add_mod, Nat.mod_eq_of_lt hn, Nat.add_mod p, Nat.add_mod (p % w)]
  generalize origin % w = a at *
  generalize p % w = q at *
  rw [Nat.mod_eq_of_lt h2]
  rcases Nat.eq_zero_or_pos a with rfl | ha
  · rw [Nat.zero_add, Nat.sub_zero, Nat.mod_self, Nat.zero_mod, Nat.add_zero, Nat.mod_eq_of_lt hn,
      Nat.mod_eq_of_lt h2]
    exact eq_comm
  · rw [Nat.mod_eq_of_lt (show w - a < w by omega), Nat.mod_eq_of_lt (show w - a < w by omega)]
    rcases Nat.lt_or_ge (a + n) w with h | h
    · rw [Nat.mod_eq_of_lt h]
      rcases Nat.lt_or_ge (q + (w - a)) w with h' | h'
      · rw [Nat.mod_eq_of_lt h']; omega
      · rw [Nat.mod_eq_sub_mod h', Nat.mod_eq_of_lt (by omega)]; omega
    · rw [Nat.mod_eq_sub_mod h, Nat.mod_eq_of_lt (by omega)]
      rcases Nat.lt_or_ge (q + (w - a)) w with h' | h'
      · rw [Nat.mod_eq_of_lt h']; omega
      · rw [Nat.mod_eq_sub_mod h', Nat.mod_eq_of_lt (by omega)]; omega

theorem blitCols_get (c : Canvas) (x0 y : Nat) (b : Byte) {n : Nat} (hn : n ≤ 8) (px py : Nat) :
    dispGet (blitCols c x0 y b n).1 px py = (dispGet c.1 px py ^^ (decide (y % 32 = py % 32) &&
      (decide (wrapOffset 64 x0 px < n) && b.getLsbD (7 - wrapOffset 64 x0 px)))) := by
  induction n with
  | zero => simp [blitCols]
  | succ n ih =>
    rw [blitCols_succ, blitBit_get, ih (by omega)]
    simp only [wrapOffset_eq_iff (show n < 64 by omega)]
    by_cases hy : y % 32 = py % 32
    · simp only [hy, decide_true, Bool.true_and, Bool.and_true]
      by_cases he : wrapOffset 64 x0 px = n
      · simp [he]
      · have hlt : wrapOffset 64 x0 px < n + 1 ↔ wrapOffset 64 x0 px < n := by omega
        simp [he, hlt]
    · simp [hy]

theorem blitCols_hit (c : Canvas) (x0 y : Nat) (b : Byte) {n : Nat} (hn : n ≤ 8) :
    (blitCols c x0 y b n).2 = true ↔
      c.2 = true ∨ ∃ col < n, b.getLsbD (7 - col) = true ∧ dispGet c.1 (x0 + col) y = true := by
  induction n with
  | zero => simp [blitCols]
  | succ n ih =>
    rw [blitCols_succ, blitBit_hit, Bool.or_eq_true, ih (by omega), blitCols_get c x0 y b (by omega)]
    have ho : wrapOffset 64 x0 (x0 + n) = n := (wrapOffset_eq_iff (by omega) x0 (x0 + n)).1 rfl
    simp only [ho, lt_irrefl, decide_false, Bool.false_and, Bool.and_false, Bool.xor_false, Bool.and_eq_true]
    constructor
    · rintro ((h | ⟨col, hc, h⟩) | h)
      · exact .inl h
      · exact .inr ⟨col, by omega, h⟩
      · exact .inr ⟨n, by omega, h⟩
    · rintro (h | ⟨col, hc, h⟩)
      · exact .inl (.inl h)
      · rcases Nat.lt_succ_iff_lt_or_eq.1 hc with hlt | rfl
        · exact .inl (.inr ⟨col, hlt, h⟩)
        · exact .inr h

theorem blitRow_get (c : Canvas) (x0 y : Nat) (b : Byte) (px py : Nat) :
    dispGet (blitRow c x0 y b).1 px py =
      (dispGet c.1 px py ^^ (decide (y % 32 = py % 32) && rowBit x0 b px)) :=
  blitCols_get c x0 y b (le_refl 8) px py

theorem blitRow_hit (c : Canvas) (x0 y : Nat) (b : Byte) :
    (blitRow c x0 y b).2 = true ↔
      c.2 = true ∨ ∃ col < 8, b.getLsbD (7 - col) = true ∧ dispGet c.1 (x0 + col) y = true :=
  blitCols_hit c x0 y b (le_refl 8)

theorem wrapOffset_succ {w : Nat} (hw : 1 < w) (origin p : Nat) (h : wrapOffset w origin p ≠ 0) :
    wrapOffset w (origin + 1) p + 1 = wrapOffset w origin p := by
  have hlt := wrapOffset_lt (show 0 < w by omega) origin p
  obtain ⟨m, hm⟩ : ∃ m, wrapOffset w origin p = m + 1 := ⟨wrapOffset w origin p - 1, by omega⟩
  have h1 := (wrapOffset_eq_iff (show m + 1 < w by omega) origin p).2 hm
  rw [show origin + (m + 1) = origin + 1 + m by omega] at h1
  rw [hm, (wrapOffset_eq_iff (show m < w by omega) (origin + 1) p).1 h1]

theorem wrapOffset_zero_succ {w : Nat} (hw : 1 < w) (origin p : Nat) (h : wrapOffset w origin p = 0) :
    wrapOffset w (origin + 1) p = w - 1 := by
  refine (wrapOffset_eq_iff (show w - 1 < w by omega) (origin + 1) p).1 ?_
  have h0 := (wrapOffset_eq_iff (show 0 < w by omega) origin p).2 h
  rw [show origin + 1 + (w - 1) = origin + w by omega, Nat.add_mod_right]
  exact h0

/-- THE BLIT, cell by cell (44_display.md R141, R142): a cell is flipped exactly when a 1 bit of the sprite falls on it.
Holds for at most 32 rows; a sprite has at most 15. -/
theorem blitRows_get (c : Canvas) (x0 y0 : Nat) (rows : List Byte) (hrows : rows.length ≤ 32) (px py : Nat) :
    dispGet (blitRows c x0 y0 rows).1 px py = (dispGet c.1 px py ^^ spriteBit x0 y0 rows px py) := by
  induction rows generalizing c y0 with
  | nil => simp [blitRows, spriteBit]
  | cons b bs ih =>
    simp only [List.length_cons] at hrows
    rw [blitRows, ih _ _ (by omega), blitRow_get, Bool.xor_assoc]
    congr 1
    have hz := wrapOffset_eq_iff (show 0 < 32 by decide) y0 py
    rw [Nat.add_zero] at hz
    simp only [spriteBit, hz, List.length_cons]
    by_cases h0 : wrapOffset 32 y0 py = 0
    · have hs := wrapOffset_zero_succ (show 1 < 32 by decide) y0 py h0
      have hlen : ¬ (31 < bs.length) := by omega
      simp [h0, hs, hlen]
    · have hs := wrapOffset_succ (show 1 < 32 by decide) y0 py h0
      rw [← hs]
      simp

theorem blitRows_hit (c : Canvas) (x0 y0 : Nat) (rows : List Byte) (hrows : rows.length ≤ 32) :
    (blitRows c x0 y0 rows).2 = true ↔ c.2 = true ∨ ∃ r < rows.length, ∃ col < 8,
      (rows.getD r 0).getLsbD (7 - col) = true ∧ dispGet c.1 (x0 + col) (y0 + r) = true := by
  induction rows generalizing c y0 with
  | nil => simp [blitRows]
  | cons b bs ih =>
    simp only [List.length_cons] at hrows
    rw [blitRows, ih _ _ (by omega), blitRow_hit, or_assoc]
    refine or_congr Iff.rfl ?_
    have hrow : ∀ r < bs.length, ∀ col, dispGet (blitRow c x0 y0 b).1 (x0 + col) (y0 + 1 + r) =
        dispGet c.1 (x0 + col) (y0 + (r + 1)) := by
      intro r hr col
      have hne : ¬ y0 % 32 = (y0 + 1 + r) % 32 := by omega
      rw [blitRow_get, decide_eq_false hne, Bool.false_and, Bool.xor_false, show y0 + 1 + r = y0 + (r + 1) by omega]
    constructor
    · rintro (⟨col, hc, h1, h2⟩ | ⟨r, hr, col, hc, h1, h2⟩)
      · exact ⟨0, by simp, col, hc, h1, h2⟩
      · exact ⟨r + 1, by simpa using hr, col, hc, by simpa using h1, (hrow r hr col) ▸ h2⟩
    · rintro ⟨r, hr, col, hc, h1, h2⟩
      rcases r with _ | r
      · exact .inl ⟨col, hc, h1, h2⟩
      · have hr' : r < bs.length := by simpa using hr
        exact .inr ⟨r, hr', col, hc, by simpa using h1, (hrow r hr' col).symm ▸ h2⟩

end Sys2Proof.Machine
end

