-- ==== Sys2Proof/Laws/Decode.lean ====
section
/-! SUPPORT. The three shapes of a word: reading the fields of a built word, and building a word from its fields. -/

namespace Sys2Proof

theorem getLsbD_nnn (op : Nibble) (a : Addr) (k : Nat) :
    (op ++ a : InstrWord).getLsbD k = if k < 12 then a.getLsbD k else op.getLsbD (k - 12) :=
  BitVec.getLsbD_append

theorem getLsbD_xnn (op x : Nibble) (b : Byte) (k : Nat) :
    (op ++ x ++ b : InstrWord).getLsbD k =
      if k < 8 then b.getLsbD k else if k < 12 then x.getLsbD (k - 8) else op.getLsbD (k - 12) := by
  refine (BitVec.getLsbD_append (x := op ++ x) (y := b)).trans ?_
  split
  · rfl
  · rw [BitVec.getLsbD_append]
    simp only [show k - 8 - 4 = k - 12 by omega, show k - 8 < 4 ↔ k < 12 by omega]

theorem getLsbD_xyn (op x y n : Nibble) (k : Nat) :
    (op ++ x ++ y ++ n : InstrWord).getLsbD k =
      if k < 4 then n.getLsbD k else if k < 8 then y.getLsbD (k - 4)
      else if k < 12 then x.getLsbD (k - 8) else op.getLsbD (k - 12) := by
  refine (BitVec.getLsbD_append (x := op ++ x ++ y) (y := n)).trans ?_
  split
  · rfl
  · rw [BitVec.getLsbD_append, BitVec.getLsbD_append]
    simp only [show k - 4 - 4 = k - 8 by omega, show k - 8 - 4 = k - 12 by omega,
      show k - 4 < 4 ↔ k < 8 by omega, show k - 8 < 4 ↔ k < 12 by omega]

theorem fields_nnn (op : Nibble) (a : Addr) : opField (op ++ a) = op ∧ nnnField (op ++ a) = a := by
  constructor <;> apply BitVec.eq_of_getLsbD_eq <;> intro k hk <;>
    simp only [opField, nnnField, BitVec.getLsbD_extractLsb', getLsbD_nnn, hk, decide_true, Bool.true_and] <;>
    simp [hk]

theorem fields_xnn (op x : Nibble) (b : Byte) :
    opField (op ++ x ++ b) = op ∧ xField (op ++ x ++ b) = x ∧ nnField (op ++ x ++ b) = b := by
  refine ⟨?_, ?_, ?_⟩ <;> apply BitVec.eq_of_getLsbD_eq <;> intro k hk <;>
    simp only [opField, xField, nnField, BitVec.getLsbD_extractLsb', getLsbD_xnn, hk, decide_true, Bool.true_and]
  · simp [show ¬ 12 + k < 8 by omega]
  · simp [show ¬ 8 + k < 8 by omega, show 8 + k < 12 by omega]
  · simp [hk]

theorem fields_xyn (op x y n : Nibble) :
    opField (op ++ x ++ y ++ n) = op ∧ xField (op ++ x ++ y ++ n) = x ∧ yField (op ++ x ++ y ++ n) = y ∧
      nField (op ++ x ++ y ++ n) = n := by
  refine ⟨?_, ?_, ?_, ?_⟩ <;> apply BitVec.eq_of_getLsbD_eq <;> intro k hk <;>
    simp only [opField, xField, yField, nField, BitVec.getLsbD_extractLsb', getLsbD_xyn, hk, decide_true, Bool.true_and]
  · simp [show ¬ 12 + k < 4 by omega, show ¬ 12 + k < 8 by omega]
  · simp [show ¬ 8 + k < 4 by omega, show ¬ 8 + k < 8 by omega, show 8 + k < 12 by omega]
  · simp [show ¬ 4 + k < 4 by omega, show 4 + k < 8 by omega]
  · simp [hk]

theorem join_nnn (w : InstrWord) : opField w ++ nnnField w = w := by
  apply BitVec.eq_of_getLsbD_eq; intro k hk
  rw [getLsbD_nnn]
  simp only [opField, nnnField, BitVec.getLsbD_extractLsb']
  split
  · simp [*]
  · simp [show k - 12 < 4 by omega, show 12 + (k - 12) = k by omega]

theorem join_xnn (w : InstrWord) : opField w ++ xField w ++ nnField w = w := by
  apply BitVec.eq_of_getLsbD_eq; intro k hk
  rw [getLsbD_xnn]
  simp only [opField, xField, nnField, BitVec.getLsbD_extractLsb']
  split
  · simp [*]
  split
  · simp [show k - 8 < 4 by omega, show 8 + (k - 8) = k by omega]
  · simp [show k - 12 < 4 by omega, show 12 + (k - 12) = k by omega]

theorem join_xyn (w : InstrWord) : opField w ++ xField w ++ yField w ++ nField w = w := by
  apply BitVec.eq_of_getLsbD_eq; intro k hk
  rw [getLsbD_xyn]
  simp only [opField, xField, yField, nField, BitVec.getLsbD_extractLsb']
  split
  · simp [*]
  split
  · simp [show k - 4 < 4 by omega, show 4 + (k - 4) = k by omega]
  split
  · simp [show k - 8 < 4 by omega, show 8 + (k - 8) = k by omega]
  · simp [show k - 12 < 4 by omega, show 12 + (k - 12) = k by omega]
/-! The decoder past the two literal words. -/

/-- A word whose high nibble is not 0 is no literal word. -/
theorem decodeWord_of_opField_ne {w : InstrWord} (h : opField w ≠ 0#4) : decodeWord w = decodeHighNibble w := by
  have h1 : w ≠ 0x00E0#16 := fun e => h (e ▸ by decide)
  have h2 : w ≠ 0x00EE#16 := fun e => h (e ▸ by decide)
  unfold decodeWord
  rw [if_neg h1, if_neg h2]

theorem decodeWord_nnn {op : Nibble} (a : Addr) (h : op ≠ 0#4) : decodeWord (op ++ a) = decodeHighNibble (op ++ a) :=
  decodeWord_of_opField_ne (by rw [(fields_nnn op a).1]; exact h)

theorem decodeWord_xnn {op : Nibble} (x : Nibble) (b : Byte) (h : op ≠ 0#4) :
    decodeWord (op ++ x ++ b) = decodeHighNibble (op ++ x ++ b) :=
  decodeWord_of_opField_ne (by rw [(fields_xnn op x b).1]; exact h)

theorem decodeWord_xyn {op : Nibble} (x y n : Nibble) (h : op ≠ 0#4) :
    decodeWord (op ++ x ++ y ++ n) = decodeHighNibble (op ++ x ++ y ++ n) :=
  decodeWord_of_opField_ne (by rw [(fields_xyn op x y n).1]; exact h)

/-- The two bytes of a word, in address order, make the word. -/
theorem join_bytes (w : InstrWord) : (w.extractLsb' 8 8 ++ w.extractLsb' 0 8 : InstrWord) = w := by
  apply BitVec.eq_of_getLsbD_eq; intro k hk
  refine (BitVec.getLsbD_append (x := w.extractLsb' 8 8) (y := w.extractLsb' 0 8)).trans ?_
  simp only [BitVec.getLsbD_extractLsb']
  split
  · simp [*]
  · simp [show k - 8 < 8 by omega, show 8 + (k - 8) = k by omega]

/-! Which rows of the opcode table a word of each shape fits. -/

theorem and_xnn (op x op' x' : Nibble) (b b' : Byte) :
    (op ++ x ++ b : InstrWord) &&& (op' ++ x' ++ b') = (op &&& op') ++ (x &&& x') ++ (b &&& b') := by
  apply BitVec.eq_of_getLsbD_eq; intro k _
  rw [BitVec.getLsbD_and, getLsbD_xnn, getLsbD_xnn, getLsbD_xnn]
  split
  · simp
  split <;> simp

theorem and_nnn (op op' : Nibble) (a a' : Addr) :
    (op ++ a : InstrWord) &&& (op' ++ a') = (op &&& op') ++ (a &&& a') := by
  apply BitVec.eq_of_getLsbD_eq; intro k _
  rw [BitVec.getLsbD_and, getLsbD_nnn, getLsbD_nnn, getLsbD_nnn]
  split <;> simp

theorem and_xyn (op x y n op' x' y' n' : Nibble) :
    (op ++ x ++ y ++ n : InstrWord) &&& (op' ++ x' ++ y' ++ n') =
      (op &&& op') ++ (x &&& x') ++ (y &&& y') ++ (n &&& n') := by
  apply BitVec.eq_of_getLsbD_eq; intro k _
  rw [BitVec.getLsbD_and, getLsbD_xyn, getLsbD_xyn, getLsbD_xyn]
  split
  · simp
  split
  · simp
  split <;> simp

/-- The mask 0xF000 keeps the high nibble. -/
theorem mask_nnn (op : Nibble) (a : Addr) : (op ++ a : InstrWord) &&& 0xF000 = op ++ 0#12 := by
  have h : (0xF000 : InstrWord) = 0xF#4 ++ 0#12 := by decide
  rw [h, and_nnn, show op &&& 0xF#4 = op from BitVec.and_allOnes, BitVec.and_zero]

theorem mask_xnn (op x : Nibble) (b : Byte) : (op ++ x ++ b : InstrWord) &&& 0xF000 = op ++ 0#12 := by
  have h : (0xF000 : InstrWord) = 0xF#4 ++ 0x0#4 ++ 0#8 := by decide
  rw [h, and_xnn, show op &&& 0xF#4 = op from BitVec.and_allOnes, BitVec.and_zero, BitVec.and_zero]
  revert op; decide

theorem mask_xyn (op x y n : Nibble) : (op ++ x ++ y ++ n : InstrWord) &&& 0xF000 = op ++ 0#12 := by
  have h : (0xF000 : InstrWord) = 0xF#4 ++ 0x0#4 ++ 0#4 ++ 0#4 := by decide
  rw [h, and_xyn, show op &&& 0xF#4 = op from BitVec.and_allOnes, BitVec.and_zero, BitVec.and_zero, BitVec.and_zero]
  revert op; decide

/-- The mask 0xF00F keeps the high and the low nibble. -/
theorem mask_family8 (op x y n : Nibble) :
    (op ++ x ++ y ++ n : InstrWord) &&& 0xF00F = op ++ 0x0#4 ++ 0x0#4 ++ n := by
  have h : (0xF00F : InstrWord) = 0xF#4 ++ 0x0#4 ++ 0x0#4 ++ 0xF#4 := by decide
  rw [h, and_xyn, show op &&& 0xF#4 = op from BitVec.and_allOnes, show n &&& 0xF#4 = n from BitVec.and_allOnes,
    BitVec.and_zero, BitVec.and_zero]

/-- The mask 0xF0FF keeps the high nibble and the low byte. -/
theorem mask_familyEF (op x : Nibble) (b : Byte) : (op ++ x ++ b : InstrWord) &&& 0xF0FF = op ++ 0x0#4 ++ b := by
  have h : (0xF0FF : InstrWord) = 0xF#4 ++ 0x0#4 ++ 0xFF#8 := by decide
  rw [h, and_xnn, show op &&& 0xF#4 = op from BitVec.and_allOnes, show b &&& 0xFF#8 = b from BitVec.and_allOnes,
    BitVec.and_zero]

end Sys2Proof
end

