-- ==== Sys2Proof/Laws/Memory.lean ====
section
/-! SUPPORT. Laws of memory: reads after writes, and every operation keeps the canonical form. -/

namespace Sys2Proof.Machine

theorem Memory.read_insert (m : List Host.Cell) (a : Nat) (v : Byte) (x : Nat) :
    Memory.read (Memory.insert m a v) x = if a = x then v else Memory.read m x := by
  induction m with
  | nil => rfl
  | cons c m ih =>
    obtain ⟨k, b⟩ := c
    simp only [Memory.insert]
    split
    · rfl
    · split
      · rename_i h
        subst h
        by_cases hx : a = x <;> simp [Memory.read, hx]
      · simp only [Memory.read, ih]
        by_cases hk : k = x
        · have : a ≠ x := by omega
          simp [hk, this]
        · simp [hk]

theorem Memory.mem_insert {m : List Host.Cell} {a : Nat} {v : Byte} {c : Host.Cell}
    (h : c ∈ Memory.insert m a v) : c = (a, v) ∨ c ∈ m := by
  induction m with
  | nil => simpa [Memory.insert] using h
  | cons d m ih =>
    obtain ⟨k, b⟩ := d
    simp only [Memory.insert] at h
    split at h
    · simpa using h
    · split at h
      · simp only [List.mem_cons] at h ⊢
        tauto
      · simp only [List.mem_cons] at h ⊢
        rcases h with h | h
        · exact .inr (.inl h)
        · rcases ih h with h | h <;> tauto

theorem Memory.erase_sublist (m : List Host.Cell) (a : Nat) : List.Sublist (Memory.erase m a) m := by
  induction m with
  | nil => exact .slnil
  | cons c m ih =>
    obtain ⟨k, b⟩ := c
    simp only [Memory.erase]
    split
    · exact .refl _
    · split
      · exact List.sublist_cons_self _ _
      · exact ih.cons_cons _

theorem Memory.insert_pairwise {m : List Host.Cell} (h : m.Pairwise (fun c d => c.1 < d.1)) (a : Nat) (v : Byte) :
    (Memory.insert m a v).Pairwise (fun c d => c.1 < d.1) := by
  induction m with
  | nil => simp [Memory.insert]
  | cons c m ih =>
    obtain ⟨k, b⟩ := c
    rw [List.pairwise_cons] at h
    simp only [Memory.insert]
    split
    · rename_i hlt
      refine List.pairwise_cons.2 ⟨?_, List.pairwise_cons.2 h⟩
      intro d hd
      rcases List.mem_cons.1 hd with rfl | hd
      · exact hlt
      · exact lt_trans hlt (h.1 d hd)
    · split
      · rename_i heq
        subst heq
        exact List.pairwise_cons.2 h
      · refine List.pairwise_cons.2 ⟨?_, ih h.2⟩
        intro d hd
        rcases Memory.mem_insert hd with rfl | hd
        · simp only; omega
        · exact h.1 d hd

/-- Above the listed addresses nothing is listed. -/
theorem Memory.read_of_lt_all {m : List Host.Cell} {a : Nat} (h : ∀ c ∈ m, a < c.1) :
    Memory.read m a = Memory.base a := by
  induction m with
  | nil => rfl
  | cons c m ih =>
    obtain ⟨k, b⟩ := c
    have hk : k ≠ a := by have := h (k, b) (by simp); simp only at this; omega
    simp only [Memory.read, hk, if_false]
    exact ih fun d hd => h d (by simp [hd])

theorem Memory.read_erase {m : List Host.Cell} (h : m.Pairwise (fun c d => c.1 < d.1)) (a x : Nat) :
    Memory.read (Memory.erase m a) x = if a = x then Memory.base a else Memory.read m x := by
  induction m with
  | nil => by_cases hx : a = x <;> simp [Memory.erase, Memory.read, hx]
  | cons c m ih =>
    obtain ⟨k, b⟩ := c
    have h' := List.pairwise_cons.1 h
    simp only [Memory.erase]
    split
    · rename_i hlt
      by_cases hx : a = x
      · subst hx
        rw [if_pos rfl]
        refine Memory.read_of_lt_all ?_
        intro d hd
        rcases List.mem_cons.1 hd with rfl | hd
        · exact hlt
        · exact lt_trans hlt (h'.1 d hd)
      · rw [if_neg hx]
    · split
      · rename_i heq
        subst heq
        by_cases hx : a = x
        · subst hx
          rw [if_pos rfl]
          exact Memory.read_of_lt_all h'.1
        · simp [Memory.read, hx]
      · rename_i hnlt hne
        simp only [Memory.read, ih h'.2]
        by_cases hk : k = x
        · have : a ≠ x := by omega
          simp [hk, this]
        · simp [hk]

/-- A store reads back, and no other cell changes. -/
theorem Memory.read_write {m : List Host.Cell} (h : Memory.Wf m) {a : Nat} (ha : a < Config.memSize) (v : Byte)
    (x : Nat) : Memory.read (Memory.write m a v) x = if a = x then v else Memory.read m x := by
  unfold Memory.write
  rw [if_pos ha]
  split
  · rename_i hv
    rw [Memory.read_erase h.1, hv]
  · exact Memory.read_insert m a v x

/-- A store never changes another cell, whatever the list. -/
theorem Memory.write_wf {m : List Host.Cell} (h : Memory.Wf m) (a : Nat) (v : Byte) :
    Memory.Wf (Memory.write m a v) := by
  unfold Memory.write
  split
  · rename_i ha
    split
    · exact ⟨h.1.sublist (Memory.erase_sublist m a), fun c hc => h.2 c ((Memory.erase_sublist m a).subset hc)⟩
    · rename_i hv
      refine ⟨Memory.insert_pairwise h.1 a v, fun c hc => ?_⟩
      rcases Memory.mem_insert hc with rfl | hc
      · exact ⟨ha, hv⟩
      · exact h.2 c hc
  · exact h

theorem Memory.writeBytes_wf {m : List Host.Cell} (h : Memory.Wf m) (a : Nat) (bs : List Byte) :
    Memory.Wf (Memory.writeBytes m a bs) := by
  induction bs generalizing a with
  | nil => exact h
  | cons b bs ih => exact Memory.write_wf (ih (a + 1)) a b

theorem Memory.nil_wf : Memory.Wf [] := by simp [Memory.Wf]

/-- Bytes stored at rising addresses inside memory read back, and no other cell changes. -/
theorem Memory.read_writeBytes {m : List Host.Cell} (h : Memory.Wf m) {a : Nat} {bs : List Byte}
    (ha : a + bs.length ≤ Config.memSize) (x : Nat) :
    Memory.read (Memory.writeBytes m a bs) x =
      if a ≤ x ∧ x < a + bs.length then bs.getD (x - a) 0 else Memory.read m x := by
  induction bs generalizing a with
  | nil =>
    rw [if_neg (by simp only [List.length_nil]; omega)]
    rfl
  | cons b bs ih =>
    simp only [List.length_cons] at ha ⊢
    simp only [Memory.writeBytes]
    rw [Memory.read_write (Memory.writeBytes_wf h (a + 1) bs) (by omega), ih (by omega)]
    by_cases hx : a = x
    · subst hx
      simp
    · rw [if_neg hx]
      by_cases hr : a + 1 ≤ x ∧ x < a + 1 + bs.length
      · rw [if_pos hr, if_pos (by omega)]
        obtain ⟨j, hj⟩ : ∃ j, x - a = j + 1 := ⟨x - a - 1, by omega⟩
        rw [hj, List.getD_cons_succ]
        congr 1
        omega
      · rw [if_neg hr, if_neg (by omega)]

theorem State.reset_memory_wf : Memory.Wf State.reset.mem := Memory.nil_wf

theorem State.byte_setByte {s : State} (h : Memory.Wf s.mem) {a : Nat} (ha : a < Config.memSize) (b : Byte) (x : Nat) :
    (s.setByte a b).byte x = if a = x then b else s.byte x :=
  Memory.read_write h ha b x

end Sys2Proof.Machine
end

