-- ==== Sys2Proof/Laws/Ops.lean ====
section
/-! SUPPORT. One lemma per shared operation, saying everything it can do; provers cite these instead of unfolding. -/

namespace Sys2Proof.Machine

/-! Ends of an instruction. -/

theorem State.guardRange_inside {s : State} {k : Nat} (go : Result) (h : s.i.toNat + k ≤ 0xFFF) :
    s.guardRange k go = go := if_neg (by omega)

theorem State.guardRange_outside {s : State} {k : Nat} (go : Result) (h : s.i.toNat + k > 0xFFF) :
    s.guardRange k go = .next (s.raise .memRange) := if_pos h

theorem State.withKey_inside {s : State} {x : Nibble} (go : Bool → State) (h : (s.getV x).toNat ≤ 15) :
    s.withKey x go = .next (go (s.getKey (padIndex (s.getV x)))) := if_neg (by omega)

theorem State.withKey_outside {s : State} {x : Nibble} (go : Bool → State) (h : (s.getV x).toNat > 15) :
    s.withKey x go = .next (s.raise .keyIndex) := if_pos h

theorem padIndex_toNat {b : Byte} (h : b.toNat ≤ 15) : (padIndex b).toNat = b.toNat := by
  simp only [padIndex, BitVec.toNat_setWidth]; omega

theorem State.pcPlus_eq (s : State) (k : Nat) : s.pcPlus k = s.pc + BitVec.ofNat 12 k := by
  apply BitVec.eq_of_toNat_eq
  simp [State.pcPlus, BitVec.toNat_add]

theorem State.advance_eq (s : State) : s.advance = { s with pc := s.pcPlus 2 } := by
  rw [State.pcPlus_eq]; rfl

theorem State.skipIf_eq (s : State) (c : Bool) : s.skipIf c = { s with pc := s.pcPlus (if c = true then 4 else 2) } := by
  cases c <;> simp only [State.pcPlus_eq] <;> rfl

/-! Result and flag. -/

theorem State.getV_setResultFlag (s : State) (x y : Nibble) (r f : Byte) :
    (s.setResultFlag x r f).getV y = if y = vfIndex then f else if y = x then r else s.getV y := by
  simp only [State.setResultFlag, State.getV_setV, eq_comm]

/-- Only the general registers change. -/
theorem State.setResultFlag_eq (s : State) (x : Nibble) (r f : Byte) :
    s.setResultFlag x r f = { s with v := (s.setResultFlag x r f).v } := rfl

/-! Register dump and load. -/

/-- Only memory changes. -/
theorem State.dumpTo_eq (s : State) (base n : Nat) : s.dumpTo base n = { s with mem := (s.dumpTo base n).mem } := by
  induction n with
  | zero => rfl
  | succ n ih => rw [State.dumpTo, ih]; rfl

theorem State.getV_dumpTo (s : State) (base n : Nat) (x : Nibble) : (s.dumpTo base n).getV x = s.getV x := by
  rw [State.dumpTo_eq]; rfl

theorem State.dumpTo_wf {s : State} (h : Memory.Wf s.mem) (base n : Nat) : Memory.Wf (s.dumpTo base n).mem := by
  induction n with
  | zero => exact h
  | succ n ih => exact Memory.write_wf ih _ _

/-- What the dump stores: `V[k]` at `base + k`, and no other cell changes. -/
theorem State.byte_dumpTo {s : State} (h : Memory.Wf s.mem) {base n : Nat} (hb : base + n ≤ Config.memSize) (a : Nat) :
    (s.dumpTo base n).byte a =
      if base ≤ a ∧ a < base + n then s.getV (BitVec.ofNat 4 (a - base)) else s.byte a := by
  induction n with
  | zero => rw [if_neg (by omega)]; rfl
  | succ n ih =>
    rw [State.dumpTo, State.byte_setByte (State.dumpTo_wf h base n) (by omega), ih (by omega)]
    by_cases ha : base + n = a
    · subst ha
      rw [if_pos rfl, if_pos (by omega), Nat.add_sub_cancel_left]
    · rw [if_neg ha]
      by_cases hr : base ≤ a ∧ a < base + n
      · rw [if_pos hr, if_pos (by omega)]
      · rw [if_neg hr, if_neg (by omega)]

/-- The dump of `LD [I], Vx` as claims write it. -/
theorem State.byte_dumpTo_eq_dumpedByte {s : State} (h : Memory.Wf s.mem) {x : Nibble}
    (hx : s.i.toNat + x.toNat ≤ 0xFFF) (a : Nat) : (s.dumpTo s.i.toNat (x.toNat + 1)).byte a = s.dumpedByte x a := by
  rw [State.byte_dumpTo h (by simp only [Config.memSize]; omega), State.dumpedByte]
  exact if_congr (by omega) rfl rfl

/-- Only the general registers change. -/
theorem State.loadFrom_eq (s : State) (base n : Nat) : s.loadFrom base n = { s with v := (s.loadFrom base n).v } := by
  induction n with
  | zero => rfl
  | succ n ih => rw [State.loadFrom, ih]; rfl

/-- What the load leaves: `V[k]` is the byte at `base + k` for `k < n`, and no other register changes. -/
theorem State.getV_loadFrom (s : State) (base : Nat) {n : Nat} (hn : n ≤ 16) (y : Nibble) :
    (s.loadFrom base n).getV y = if y.toNat < n then s.byte (base + y.toNat) else s.getV y := by
  induction n with
  | zero => rfl
  | succ n ih =>
    rw [State.loadFrom, State.getV_setV, ih (by omega)]
    have hto : (BitVec.ofNat 4 n).toNat = n := by rw [BitVec.toNat_ofNat]; omega
    by_cases hy : BitVec.ofNat 4 n = y
    · subst hy
      rw [if_pos rfl, hto, if_pos (by omega)]
    · have hne : y.toNat ≠ n := fun h => hy (BitVec.eq_of_toNat_eq (by rw [hto, h]))
      rw [if_neg hy]
      by_cases hlt : y.toNat < n
      · rw [if_pos hlt, if_pos (by omega)]
      · rw [if_neg hlt, if_neg (by omega)]

/-! The modes, the fetch and the step. -/

theorem State.mode_running {s : State} (h : s.Running) : s.mode = .running := by
  simp [State.mode, h.1, h.2]

theorem State.fetch_eq {s : State} (h : s.pc ≠ 0xFFF) : s.fetch = .ok (decodeWord (s.wordAt s.pc.toNat)) := if_neg h

theorem State.fetch_top {s : State} (h : s.pc = 0xFFF) : s.fetch = .error .fetchRange := if_pos h

/-- Everything a Step can do (40_flow.md R80). -/
theorem step_cases (s : State) :
    (¬ s.Running ∧ step s = .next s) ∨
    (s.Running ∧ s.pc = 0xFFF ∧ step s = .next (s.raise .fetchRange)) ∨
    (s.Running ∧ s.pc ≠ 0xFFF ∧ step s = exec (decodeWord (s.wordAt s.pc.toNat)) s) := by
  by_cases hr : s.Running
  · by_cases hp : s.pc = 0xFFF
    · exact .inr (.inl ⟨hr, hp, by simp [step, State.mode_running hr, State.fetch_top hp]⟩)
    · exact .inr (.inr ⟨hr, hp, by simp [step, State.mode_running hr, State.fetch_eq hp]⟩)
  · refine .inl ⟨hr, ?_⟩
    unfold step State.mode
    cases hf : s.fault with
    | some c => rfl
    | none =>
      cases hw : s.wait with
      | some r => rfl
      | none => exact absurd ⟨hf, hw⟩ hr

/-- A Step request while Running is the Step with its random input at the port. -/
theorem stepWith_running {s : State} (h : s.Running) (r : Option Byte) : stepWith r s = step (s.present r) := by
  rw [stepWith, State.mode_running h]

/-- The bytes placed for a fetch are the ones fetched. -/
theorem State.wordAt_placeWord {s : State} (h : Memory.Wf s.mem) (hp : s.pc ≠ 0xFFF) (w : Nat) :
    (s.placeWord 16 w).wordAt s.pc.toNat = BitVec.ofNat 8 (w % 2 ^ 16 / 256) ++ BitVec.ofNat 8 (w % 2 ^ 16) := by
  have hlt : s.pc.toNat < 4095 := by
    have h1 := s.pc.isLt
    have h2 : s.pc.toNat ≠ 4095 := fun h3 => hp (BitVec.eq_of_toNat_eq h3)
    omega
  have hlen : s.pc.toNat + (tableWordBytes 16 w).length ≤ Config.memSize := by
    simp only [tableWordBytes, Config.memSize, List.length_cons, List.length_nil]; omega
  simp only [State.wordAt, State.byte, State.placeWord, Memory.read_writeBytes h hlen]
  simp [tableWordBytes]

/-! Events. -/

theorem countDown_toNat (b : Byte) : (countDown b).toNat = b.toNat - 1 := by
  unfold countDown
  split
  · rename_i h; rw [h]; rfl
  · rename_i h
    have : b.toNat ≠ 0 := fun h' => h (BitVec.eq_of_toNat_eq h')
    rw [BitVec.toNat_sub_of_le (by rw [BitVec.le_def]; simp; omega)]
    rfl

theorem loadedMemory_wf (image : List Byte) : Memory.Wf (loadedMemory image) :=
  Memory.writeBytes_wf Memory.nil_wf _ _

theorem read_loadedMemory {image : List Byte} (h : image.length ≤ Config.maxImage) (a : Nat) :
    Memory.read (loadedMemory image) a =
      if 0x200 ≤ a ∧ a < 0x200 + image.length then image.getD (a - 0x200) 0 else Memory.base a := by
  have hlen : Config.progBase + image.length ≤ Config.memSize := by
    simp only [Config.progBase, Config.memSize, Config.maxImage] at *; omega
  exact Memory.read_writeBytes Memory.nil_wf hlen a

/-- Every cause has its own code, and no code is that of no cause (60_exceptions.md R201). -/
theorem Fault.code_injective {c d : Fault} (h : c.code = d.code) : c = d := by
  cases c <;> cases d <;> first | rfl | exact absurd h (by decide)

end Sys2Proof.Machine
end

