-- ==== Sys2Proof/Laws/PerInstr.lean ====
section
/-! SUPPORT. Statements made per instruction. `EncodesInRow`: the word of an instruction fits the mask and pattern of
its row of the opcode table (30_encoding.md R64). -/

namespace Sys2Proof.Laws

/-- The encoder puts the instruction in the row of its mnemonic. -/
def EncodesInRow.Statement (i : Instr) : Prop :=
  ∃ r ∈ opcodeTable, r.mnemonic = i.mnemonic ∧ r.Fits (encode i)

theorem EncodesInRow.cls : EncodesInRow.Statement .cls :=
  ⟨⟨"CLS", 0x00E0, 0xFFFF, 1⟩, by decide, rfl, by decide⟩

theorem EncodesInRow.ret : EncodesInRow.Statement .ret :=
  ⟨⟨"RET", 0x00EE, 0xFFFF, 1⟩, by decide, rfl, by decide⟩

theorem EncodesInRow.sys (nnn : Addr) : EncodesInRow.Statement (.sys nnn) :=
  ⟨⟨"SYS_NNN", 0x0000, 0xF000, 3⟩, by decide, rfl, mask_nnn .. |>.trans (by decide)⟩

theorem EncodesInRow.jp (nnn : Addr) : EncodesInRow.Statement (.jp nnn) :=
  ⟨⟨"JP_NNN", 0x1000, 0xF000, 2⟩, by decide, rfl, mask_nnn .. |>.trans (by decide)⟩

theorem EncodesInRow.call (nnn : Addr) : EncodesInRow.Statement (.call nnn) :=
  ⟨⟨"CALL_NNN", 0x2000, 0xF000, 2⟩, by decide, rfl, mask_nnn .. |>.trans (by decide)⟩

theorem EncodesInRow.seImm (x : Nibble) (nn : Byte) : EncodesInRow.Statement (.seImm x nn) :=
  ⟨⟨"SE_Vx__NN", 0x3000, 0xF000, 2⟩, by decide, rfl, mask_xnn .. |>.trans (by decide)⟩

theorem EncodesInRow.sneImm (x : Nibble) (nn : Byte) : EncodesInRow.Statement (.sneImm x nn) :=
  ⟨⟨"SNE_Vx__NN", 0x4000, 0xF000, 2⟩, by decide, rfl, mask_xnn .. |>.trans (by decide)⟩

theorem EncodesInRow.seReg (x y n : Nibble) : EncodesInRow.Statement (.seReg x y n) :=
  ⟨⟨"SE_Vx__Vy", 0x5000, 0xF000, 2⟩, by decide, rfl, mask_xyn .. |>.trans (by decide)⟩

theorem EncodesInRow.ldImm (x : Nibble) (nn : Byte) : EncodesInRow.Statement (.ldImm x nn) :=
  ⟨⟨"LD_Vx__NN", 0x6000, 0xF000, 2⟩, by decide, rfl, mask_xnn .. |>.trans (by decide)⟩

theorem EncodesInRow.addImm (x : Nibble) (nn : Byte) : EncodesInRow.Statement (.addImm x nn) :=
  ⟨⟨"ADD_Vx__NN", 0x7000, 0xF000, 2⟩, by decide, rfl, mask_xnn .. |>.trans (by decide)⟩

theorem EncodesInRow.ldReg (x y : Nibble) : EncodesInRow.Statement (.ldReg x y) :=
  ⟨⟨"LD_Vx__Vy", 0x8000, 0xF00F, 2⟩, by decide, rfl, mask_family8 .. |>.trans (by decide)⟩

theorem EncodesInRow.orReg (x y : Nibble) : EncodesInRow.Statement (.orReg x y) :=
  ⟨⟨"OR_Vx__Vy", 0x8001, 0xF00F, 2⟩, by decide, rfl, mask_family8 .. |>.trans (by decide)⟩

theorem EncodesInRow.andReg (x y : Nibble) : EncodesInRow.Statement (.andReg x y) :=
  ⟨⟨"AND_Vx__Vy", 0x8002, 0xF00F, 2⟩, by decide, rfl, mask_family8 .. |>.trans (by decide)⟩

theorem EncodesInRow.xorReg (x y : Nibble) : EncodesInRow.Statement (.xorReg x y) :=
  ⟨⟨"XOR_Vx__Vy", 0x8003, 0xF00F, 2⟩, by decide, rfl, mask_family8 .. |>.trans (by decide)⟩

theorem EncodesInRow.addReg (x y : Nibble) : EncodesInRow.Statement (.addReg x y) :=
  ⟨⟨"ADD_Vx__Vy", 0x8004, 0xF00F, 2⟩, by decide, rfl, mask_family8 .. |>.trans (by decide)⟩

theorem EncodesInRow.subReg (x y : Nibble) : EncodesInRow.Statement (.subReg x y) :=
  ⟨⟨"SUB_Vx__Vy", 0x8005, 0xF00F, 2⟩, by decide, rfl, mask_family8 .. |>.trans (by decide)⟩

theorem EncodesInRow.shrReg (x y : Nibble) : EncodesInRow.Statement (.shrReg x y) :=
  ⟨⟨"SHR_Vx__Vy", 0x8006, 0xF00F, 2⟩, by decide, rfl, mask_family8 .. |>.trans (by decide)⟩

theorem EncodesInRow.subnReg (x y : Nibble) : EncodesInRow.Statement (.subnReg x y) :=
  ⟨⟨"SUBN_Vx__Vy", 0x8007, 0xF00F, 2⟩, by decide, rfl, mask_family8 .. |>.trans (by decide)⟩

theorem EncodesInRow.shlReg (x y : Nibble) : EncodesInRow.Statement (.shlReg x y) :=
  ⟨⟨"SHL_Vx__Vy", 0x800E, 0xF00F, 2⟩, by decide, rfl, mask_family8 .. |>.trans (by decide)⟩

theorem EncodesInRow.nop8 (x y n : Nibble) : EncodesInRow.Statement (.nop8 x y n) :=
  ⟨⟨"NOP8", 0x8000, 0xF000, 3⟩, by decide, rfl, mask_xyn .. |>.trans (by decide)⟩

theorem EncodesInRow.sneReg (x y n : Nibble) : EncodesInRow.Statement (.sneReg x y n) :=
  ⟨⟨"SNE_Vx__Vy", 0x9000, 0xF000, 2⟩, by decide, rfl, mask_xyn .. |>.trans (by decide)⟩

theorem EncodesInRow.ldI (nnn : Addr) : EncodesInRow.Statement (.ldI nnn) :=
  ⟨⟨"LD_I__NNN", 0xA000, 0xF000, 2⟩, by decide, rfl, mask_nnn .. |>.trans (by decide)⟩

theorem EncodesInRow.jpV0 (nnn : Addr) : EncodesInRow.Statement (.jpV0 nnn) :=
  ⟨⟨"JP_V0__NNN", 0xB000, 0xF000, 2⟩, by decide, rfl, mask_nnn .. |>.trans (by decide)⟩

theorem EncodesInRow.rnd (x : Nibble) (nn : Byte) : EncodesInRow.Statement (.rnd x nn) :=
  ⟨⟨"RND_Vx__NN", 0xC000, 0xF000, 2⟩, by decide, rfl, mask_xnn .. |>.trans (by decide)⟩

theorem EncodesInRow.drw (x y n : Nibble) : EncodesInRow.Statement (.drw x y n) :=
  ⟨⟨"DRW_Vx__Vy__N", 0xD000, 0xF000, 2⟩, by decide, rfl, mask_xyn .. |>.trans (by decide)⟩

theorem EncodesInRow.skp (x : Nibble) : EncodesInRow.Statement (.skp x) :=
  ⟨⟨"SKP_Vx", 0xE09E, 0xF0FF, 2⟩, by decide, rfl, mask_familyEF .. |>.trans (by decide)⟩

theorem EncodesInRow.sknp (x : Nibble) : EncodesInRow.Statement (.sknp x) :=
  ⟨⟨"SKNP_Vx", 0xE0A1, 0xF0FF, 2⟩, by decide, rfl, mask_familyEF .. |>.trans (by decide)⟩

theorem EncodesInRow.nopE (x : Nibble) (nn : Byte) : EncodesInRow.Statement (.nopE x nn) :=
  ⟨⟨"NOPE", 0xE000, 0xF000, 3⟩, by decide, rfl, mask_xnn .. |>.trans (by decide)⟩

theorem EncodesInRow.ldVxDt (x : Nibble) : EncodesInRow.Statement (.ldVxDt x) :=
  ⟨⟨"LD_Vx__DT", 0xF007, 0xF0FF, 2⟩, by decide, rfl, mask_familyEF .. |>.trans (by decide)⟩

theorem EncodesInRow.ldVxK (x : Nibble) : EncodesInRow.Statement (.ldVxK x) :=
  ⟨⟨"LD_Vx__K", 0xF00A, 0xF0FF, 2⟩, by decide, rfl, mask_familyEF .. |>.trans (by decide)⟩

theorem EncodesInRow.ldDtVx (x : Nibble) : EncodesInRow.Statement (.ldDtVx x) :=
  ⟨⟨"LD_DT__Vx", 0xF015, 0xF0FF, 2⟩, by decide, rfl, mask_familyEF .. |>.trans (by decide)⟩

theorem EncodesInRow.ldStVx (x : Nibble) : EncodesInRow.Statement (.ldStVx x) :=
  ⟨⟨"LD_ST__Vx", 0xF018, 0xF0FF, 2⟩, by decide, rfl, mask_familyEF .. |>.trans (by decide)⟩

theorem EncodesInRow.addI (x : Nibble) : EncodesInRow.Statement (.addI x) :=
  ⟨⟨"ADD_I__Vx", 0xF01E, 0xF0FF, 2⟩, by decide, rfl, mask_familyEF .. |>.trans (by decide)⟩

theorem EncodesInRow.ldF (x : Nibble) : EncodesInRow.Statement (.ldF x) :=
  ⟨⟨"LD_F__Vx", 0xF029, 0xF0FF, 2⟩, by decide, rfl, mask_familyEF .. |>.trans (by decide)⟩

theorem EncodesInRow.ldB (x : Nibble) : EncodesInRow.Statement (.ldB x) :=
  ⟨⟨"LD_B__Vx", 0xF033, 0xF0FF, 2⟩, by decide, rfl, mask_familyEF .. |>.trans (by decide)⟩

theorem EncodesInRow.dump (x : Nibble) : EncodesInRow.Statement (.dump x) :=
  ⟨⟨"LD__I___Vx", 0xF055, 0xF0FF, 2⟩, by decide, rfl, mask_familyEF .. |>.trans (by decide)⟩

theorem EncodesInRow.load (x : Nibble) : EncodesInRow.Statement (.load x) :=
  ⟨⟨"LD_Vx___I", 0xF065, 0xF0FF, 2⟩, by decide, rfl, mask_familyEF .. |>.trans (by decide)⟩

theorem EncodesInRow.nopF (x : Nibble) (nn : Byte) : EncodesInRow.Statement (.nopF x nn) :=
  ⟨⟨"NOPF", 0xF000, 0xF000, 3⟩, by decide, rfl, mask_xnn .. |>.trans (by decide)⟩

end Sys2Proof.Laws
end

