-- ==== Sys2Proof/Machine/Signals.lean ====
section
/-! DEFINITION. The signal binding of 50_host_interface.md R189 and R193: one clock edge of the pinned block. What R189
leaves open is fixed by log entry 7; no claim about an instruction rests on this file. -/

namespace Sys2Proof.Machine

/-- The input pins sampled at a rising edge of `clk` (50_host_interface.md R189). -/
structure Pins where
  rst : Bool
  ldWe : Bool
  ldAddr : Addr
  ldData : Byte
  ldErr : Bool
  step : Bool
  tick : Bool
  keyValid : Bool
  keyDown : Bool
  keyIdx : Nibble
  rndValid : Bool
  rnd : Byte
  deriving DecidableEq, Repr

/-- The block behind its pins: its state, whether `rst` was high at the last edge, and the image bytes written through
the load port since `rst` rose, as canonical memory. -/
structure Board where
  block : State
  inReset : Bool
  loaded : List Host.Cell
  deriving DecidableEq, Repr

/-- The events the strobes stand for (50_host_interface.md R189). -/
def Pins.inputs (p : Pins) : ClockInputs where
  step := p.step
  random := if p.rndValid then some p.rnd else none
  tick := p.tick
  keyEvent := if p.keyValid then some (p.keyDown, p.keyIdx) else none

/-- One write of the load port: only the addresses of an image, 0x200 and above, take a byte (50_host_interface.md
R189, R193). -/
def loadPort (loaded : List Host.Cell) (p : Pins) : List Host.Cell :=
  if p.ldWe && decide (p.ldAddr.toNat ≥ Config.progBase) then Memory.write loaded p.ldAddr.toNat p.ldData else loaded

/-- What the edge makes of the block's result: the board goes on with it. -/
def Board.continueWith (b : Board) (r : Result) : Board :=
  match r with
  | .next s => { b with block := s }
  | .fault _ => b
  | .refused _ => b

/-- One rising edge of `clk`: the load port while `rst` is high, Reset at its falling edge (alone), else the events of
the clock (50_host_interface.md R188, R189, R193). -/
def clockEdge (p : Pins) (b : Board) : Board :=
  if p.rst then
    { b with inReset := true, loaded := loadPort (if b.inReset then b.loaded else []) p }
  else if b.inReset then
    { b with
      block := if p.ldErr then b.block.powerUp [] (some .loadError) else b.block.powerUp b.loaded none
      inReset := false }
  else b.continueWith (clockCycle p.inputs b.block)

end Sys2Proof.Machine
end

