-- ==== Sys2Proof/Tests/Slice0.lean ====
section
/-! SUPPORT. Tests whose expected results are the vectors of 95_test_vectors.md (named by their ids) or hand calculation
from the rules, and a witness for each statement with hypotheses. -/

namespace Sys2Proof.Tests

open Sys2Proof.Machine

/-- The result is a next state with the given property. -/
def nextWith (r : Result) (p : State → Bool) : Bool :=
  match r with
  | .next s => p s
  | .fault _ => false
  | .refused _ => false

/-- The reset state with a word at `PC`, high byte first. -/
def at0 (w : Nat) : State := State.reset.withFetchWord 16 w

/-- The state with registers changed. -/
def withV (s : State) (vs : List (Nibble × Byte)) : State := vs.foldl (fun t c => t.setV c.1 c.2) s

/-- The state with bytes of memory changed. -/
def withMem (s : State) (a : Nat) (bs : List Byte) : State := { s with mem := Memory.writeBytes s.mem a bs }

/-- The state with display cells lit. -/
def withLit (s : State) (cells : List (Nat × Nat)) : State :=
  { s with disp := cells.foldl (fun d c => dispSet d c.1 c.2 true) s.disp }

/-- The lit cells, row by row. -/
def litCells (s : State) : List (Nat × Nat) :=
  (List.range 32).flatMap fun y => ((List.range 64).filter fun x => dispGet s.disp x y).map fun x => (x, y)

/-! Ill-formed instructions are refused, one for each check. -/

theorem test_wf_sys_cls : ¬ WellFormed (.sys 0x0E0) := by decide
theorem test_wf_sys_ret : ¬ WellFormed (.sys 0x0EE) := by decide
theorem test_wf_nop8 : ¬ WellFormed (.nop8 1 2 0xE) := by decide
theorem test_wf_nopE_skp : ¬ WellFormed (.nopE 1 0x9E) := by decide
theorem test_wf_nopE_sknp : ¬ WellFormed (.nopE 1 0xA1) := by decide
theorem test_wf_nopF : ¬ WellFormed (.nopF 1 0x65) := by decide

/-! Decoding, each word written out from 30_encoding.md, one for every constructor. -/

theorem test_decode_flow : decodeWord 0b0000000011100000 = .cls ∧ decodeWord 0b0000000011101110 = .ret ∧
    decodeWord 0b0000000100100011 = .sys 0x123 ∧ decodeWord 0b0001101010111100 = .jp 0xABC ∧
    decodeWord 0b0010001000001010 = .call 0x20A ∧ decodeWord 0b1011101010111100 = .jpV0 0xABC := by decide
theorem test_decode_skip : decodeWord 0b0011101000010111 = .seImm 0xA 0x17 ∧
    decodeWord 0b0100101000010111 = .sneImm 0xA 0x17 ∧ decodeWord 0b0101000100100111 = .seReg 1 2 7 ∧
    decodeWord 0b1001000100101111 = .sneReg 1 2 0xF := by decide
theorem test_decode_immediate : decodeWord 0b0110101000010111 = .ldImm 0xA 0x17 ∧
    decodeWord 0b0111000100000001 = .addImm 1 1 ∧ decodeWord 0b1010000100100011 = .ldI 0x123 ∧
    decodeWord 0b1100001100001111 = .rnd 3 0x0F := by decide
theorem test_decode_family8 : decodeWord 0b1000000100100000 = .ldReg 1 2 ∧
    decodeWord 0b1000000100100001 = .orReg 1 2 ∧ decodeWord 0b1000000100100010 = .andReg 1 2 ∧
    decodeWord 0b1000000100100011 = .xorReg 1 2 ∧ decodeWord 0b1000000100100100 = .addReg 1 2 ∧
    decodeWord 0b1000000100100101 = .subReg 1 2 ∧ decodeWord 0b1000000100100110 = .shrReg 1 2 ∧
    decodeWord 0b1000000100100111 = .subnReg 1 2 ∧ decodeWord 0b1000000100101110 = .shlReg 1 2 ∧
    decodeWord 0b1000101010111000 = .nop8 0xA 0xB 8 := by decide
theorem test_decode_display_keys : decodeWord 0b1101000100100101 = .drw 1 2 5 ∧
    decodeWord 0b1110000110011110 = .skp 1 ∧ decodeWord 0b1110000110100001 = .sknp 1 ∧
    decodeWord 0b1110000010011101 = .nopE 0 0x9D ∧ decodeWord 0b1111001100001010 = .ldVxK 3 := by decide
theorem test_decode_familyF : decodeWord 0b1111000100000111 = .ldVxDt 1 ∧ decodeWord 0b1111000100010101 = .ldDtVx 1 ∧
    decodeWord 0b1111000100011000 = .ldStVx 1 ∧ decodeWord 0b1111000100011110 = .addI 1 ∧
    decodeWord 0b1111000100101001 = .ldF 1 ∧ decodeWord 0b1111000000110011 = .ldB 0 ∧
    decodeWord 0b1111001101010101 = .dump 3 ∧ decodeWord 0b1111001101100101 = .load 3 ∧
    decodeWord 0b1111111111111111 = .nopF 0xF 0xFF := by decide
theorem test_decode_truncated : decodeBytes [0x6A] = .error .truncated := by decide
theorem test_decode_table_word : decodeTableWord 16 0x6A17 = some (.ldImm 0xA 0x17) := by decide

/-! The Step and control flow. -/

theorem test_sys_F2 : nextWith (step (({ State.reset with pc := 0xFFE }).withFetchWord 16 0x0000))
    (fun t => t.pc == 0x000) = true := by decide
theorem test_jp_F3 : nextWith (step (at0 0x1ABC)) (fun t => t.pc == 0xABC) = true := by decide
theorem test_fetch_F7 : nextWith (step { State.reset with pc := 0xFFF })
    (fun t => t.fault == some .fetchRange && t.pc == 0xFFF) = true := by decide
theorem test_call_F8 : nextWith (step (({ State.reset with pc := 0x204 }).withFetchWord 16 0x220A))
    (fun t => t.sp == 1 && t.getStack 1 == 0x206 && t.pc == 0x20A) = true := by decide
theorem test_call_F11 : nextWith (step (({ at0 0x2300 with sp := 15 }).setStack 15 0x111))
    (fun t => t.fault == some .stackOverflow && t.pc == 0x200 && t.sp == 15 && t.getStack 15 == 0x111) = true := by decide
theorem test_ret_F12 : nextWith (step (({ at0 0x00EE with sp := 1 }).setStack 1 0x206))
    (fun t => t.pc == 0x206 && t.sp == 0 && t.getStack 1 == 0x206) = true := by decide
theorem test_ret_F13 : nextWith (step (at0 0x00EE))
    (fun t => t.fault == some .stackUnderflow && t.pc == 0x200) = true := by decide
theorem test_jpV0_F16 : nextWith (step (withV (at0 0xBFFF) [(0, 0xFF)])) (fun t => t.pc == 0x0FE) = true := by decide
theorem test_faulted_F18 : nextWith (step { at0 0x6A17 with fault := some .memRange })
    (fun t => t.pc == 0x200 && t.getV 0xA == 0) = true := by decide
theorem test_waiting_F19 : nextWith (step { at0 0x6A17 with wait := some 3 })
    (fun t => t.pc == 0x200 && t.getV 0xA == 0) = true := by decide

/-! Skips. -/

theorem test_seImm_K1 : nextWith (step (withV (at0 0x3A17) [(0xA, 0x17)])) (fun t => t.pc == 0x204) = true := by decide
theorem test_seImm_K13 : nextWith (step (({ State.reset with pc := 0xFFE }).withFetchWord 16 0x3000))
    (fun t => t.pc == 0x002) = true := by decide
theorem test_sneImm_K3 : nextWith (step (withV (at0 0x4A17) [(0xA, 0x17)])) (fun t => t.pc == 0x202) = true := by decide
theorem test_seReg_K6 : nextWith (step (withV (at0 0x5127) [(1, 0x42), (2, 0x42)])) (fun t => t.pc == 0x204) = true := by
  decide
theorem test_sneReg_K10 : nextWith (step (withV (at0 0x912F) [(1, 0x42), (2, 0x43)])) (fun t => t.pc == 0x204) = true := by
  decide

/-! Immediates. -/

theorem test_ldImm_I1 : nextWith (step (at0 0x6A17)) (fun t => t.getV 0xA == 0x17 && t.pc == 0x202) = true := by decide
theorem test_addImm_I3 : nextWith (step (withV (at0 0x7101) [(1, 0xFF), (0xF, 1)]))
    (fun t => t.getV 1 == 0 && t.getV 0xF == 1) = true := by decide
theorem test_addImm_I5 : nextWith (step (withV (at0 0x7F01) [(0xF, 0xFF)])) (fun t => t.getV 0xF == 0) = true := by decide
theorem test_ldI_I8 : nextWith (step (at0 0xAFFF)) (fun t => t.i == 0xFFF && t.fault == none) = true := by decide
theorem test_rnd_I12 : nextWith (stepWith (some 0xA5) (at0 0xCFF0)) (fun t => t.getV 0xF == 0xA0) = true := by decide
theorem test_rnd_I13 : nextWith (stepWith none (withV (at0 0xC30F) [(3, 0x77)]))
    (fun t => t.fault == some .entropy && t.pc == 0x200 && t.getV 3 == 0x77) = true := by decide

/-! Family 8. -/

theorem test_ldReg_A2 : nextWith (step (withV (at0 0x8EF0) [(0xF, 1)])) (fun t => t.getV 0xE == 1 && t.getV 0xF == 1) = true := by
  decide
theorem test_or_A8 : nextWith (step (withV (at0 0x81F1) [(1, 2), (0xF, 1)])) (fun t => t.getV 1 == 3 && t.getV 0xF == 0) = true := by
  decide
theorem test_or_A7 : nextWith (step (withV (at0 0x8F11) [(0xF, 0x80), (1, 1)])) (fun t => t.getV 0xF == 0) = true := by decide
theorem test_and_A4 : nextWith (step (withV (at0 0x8122) [(1, 0xF0), (2, 0x3C), (0xF, 1)]))
    (fun t => t.getV 1 == 0x30 && t.getV 0xF == 0) = true := by decide
theorem test_xor_A9 : nextWith (step (withV (at0 0x81F3) [(1, 3), (0xF, 1)])) (fun t => t.getV 1 == 2 && t.getV 0xF == 0) = true := by
  decide
theorem test_add_A12 : nextWith (step (withV (at0 0x8124) [(1, 0xFF), (2, 0xFF)]))
    (fun t => t.getV 1 == 0xFE && t.getV 0xF == 1) = true := by decide
theorem test_add_A16 : nextWith (step (withV (at0 0x8F14) [(0xF, 1), (1, 2)])) (fun t => t.getV 0xF == 0) = true := by decide
theorem test_sub_A18 : nextWith (step (withV (at0 0x8015) [(0, 5), (1, 10)]))
    (fun t => t.getV 0 == 0xFB && t.getV 0xF == 0) = true := by decide
theorem test_sub_A20 : nextWith (step (withV (at0 0x8015) [(0, 7), (1, 7)]))
    (fun t => t.getV 0 == 0 && t.getV 0xF == 1) = true := by decide
theorem test_shr_A26 : nextWith (step (withV (at0 0x8126) [(1, 0xAA), (2, 5)]))
    (fun t => t.getV 1 == 2 && t.getV 2 == 5 && t.getV 0xF == 1) = true := by decide
theorem test_shr_A29 : nextWith (step (withV (at0 0x8F16) [(0xF, 0x55), (1, 2)])) (fun t => t.getV 0xF == 0) = true := by decide
theorem test_subn_A34 : nextWith (step (withV (at0 0x8127) [(1, 10), (2, 5)]))
    (fun t => t.getV 1 == 0xFB && t.getV 0xF == 0) = true := by decide
theorem test_subn_A36 : nextWith (step (withV (at0 0x8F17) [(0xF, 3), (1, 2)])) (fun t => t.getV 0xF == 0) = true := by decide
theorem test_shl_A39 : nextWith (step (withV (at0 0x812E) [(1, 0xFF), (2, 0x40)]))
    (fun t => t.getV 1 == 0x80 && t.getV 0xF == 0) = true := by decide
theorem test_shl_A41 : nextWith (step (withV (at0 0x8F1E) [(1, 0x80)])) (fun t => t.getV 0xF == 1) = true := by decide
theorem test_nop8_A45 : nextWith (step (withV (at0 0x812F) [(1, 1), (2, 2), (0xF, 1)]))
    (fun t => t.getV 1 == 1 && t.getV 0xF == 1 && t.pc == 0x202) = true := by decide

/-! Display. -/

theorem test_cls_D17 : nextWith (step (withV (withLit (at0 0x00E0) [(0, 0), (63, 31)]) [(0xF, 1)]))
    (fun t => litCells t == [] && t.getV 0xF == 1) = true := by decide
theorem test_drw_D3 : nextWith (step (withV (withMem { at0 0xD011 with i := 0x300 } 0x300 [0xFF]) [(0, 60)]))
    (fun t => litCells t == [(0, 0), (1, 0), (2, 0), (3, 0), (60, 0), (61, 0), (62, 0), (63, 0)] && t.getV 0xF == 0) = true := by
  decide
theorem test_drw_D6 : nextWith (step (withLit (withMem { at0 0xD011 with i := 0x300 } 0x300 [0xC0]) [(1, 0)]))
    (fun t => litCells t == [(0, 0)] && t.getV 0xF == 1) = true := by decide

/-! Keys. -/

theorem test_skp_Y5 : nextWith (step ((withV (at0 0xE19E) [(1, 0x0F)]).setKey 15 true)) (fun t => t.pc == 0x204) = true := by
  decide
theorem test_skp_Y6 : nextWith (step (withV (at0 0xE19E) [(1, 0x10)]))
    (fun t => t.fault == some .keyIndex && t.pc == 0x200) = true := by decide
theorem test_sknp_Y3 : nextWith (step (withV (at0 0xE1A1) [(1, 3)])) (fun t => t.pc == 0x204) = true := by decide
theorem test_sknp_Y7 : nextWith (step (withV (at0 0xE1A1) [(1, 0xFF)])) (fun t => t.fault == some .keyIndex) = true := by decide
theorem test_nopE_Y8 : nextWith (step (withV (at0 0xE100) [(1, 0xFF)])) (fun t => t.pc == 0x202 && t.fault == none) = true := by
  decide
theorem test_ldVxK_Y11 : nextWith (step (at0 0xFF0A)) (fun t => t.wait == some 15 && t.pc == 0x202) = true := by decide

/-! Timers and the index register. -/

theorem test_ldVxDt_T1 : nextWith (step { at0 0xF107 with dt := 0x2A }) (fun t => t.getV 1 == 0x2A && t.dt == 0x2A) = true := by
  decide
theorem test_ldDtVx_T2 : nextWith (step (withV (at0 0xF115) [(1, 0x3C)])) (fun t => t.dt == 0x3C && t.st == 0) = true := by decide
theorem test_ldStVx_T3 : nextWith (step (withV (at0 0xF118) [(1, 5)])) (fun t => t.st == 5 && t.snd && t.dt == 0) = true := by decide
theorem test_addI_M3 : nextWith (step (withV { at0 0xF11E with i := 0xF80 } [(1, 0xFF)]))
    (fun t => t.i == 0x07F && t.getV 0xF == 0) = true := by decide
theorem test_ldF_M5 : nextWith (step (withV (at0 0xF129) [(1, 0x1A)])) (fun t => t.i == 0x032) = true := by decide

/-! Memory. -/

theorem test_ldB_M11 : nextWith (step (withV { at0 0xF033 with i := 0xFFD } [(0, 100)]))
    (fun t => [t.byte 0xFFD, t.byte 0xFFE, t.byte 0xFFF] == [1, 0, 0] && t.i == 0xFFD) = true := by decide
theorem test_ldB_M12 : nextWith (step (withV { at0 0xF033 with i := 0xFFE } [(0, 100)]))
    (fun t => t.fault == some .memRange && t.byte 0xFFE == 0 && t.pc == 0x200) = true := by decide
theorem test_dump_M13 : nextWith (step (withV { at0 0xF355 with i := 0x400 }
      [(0, 0x11), (1, 0x22), (2, 0x33), (3, 0x44), (4, 0x55)]))
    (fun t => (List.range 5).map (fun k => t.byte (0x400 + k)) == [0x11, 0x22, 0x33, 0x44, 0] && t.i == 0x404) = true := by
  decide
theorem test_dump_M15 : nextWith (step (withV { at0 0xF155 with i := 0xFFF } [(0, 0x77)]))
    (fun t => t.fault == some .memRange && t.byte 0xFFF == 0 && t.i == 0xFFF) = true := by decide
theorem test_load_M18 : nextWith (step (withMem { at0 0xF365 with i := 0x400 } 0x400 [0x11, 0x22, 0x33, 0x44, 0x55]))
    (fun t => [t.getV 0, t.getV 1, t.getV 2, t.getV 3, t.getV 4] == [0x11, 0x22, 0x33, 0x44, 0] && t.i == 0x404) = true := by
  decide
theorem test_load_M20 : nextWith (step { at0 0xF165 with i := 0xFFF }) (fun t => t.fault == some .memRange && t.getV 0 == 0) = true := by
  decide
theorem test_nopF_M22 : nextWith (step (withV { at0 0xF1FF with i := 5 } [(1, 7)]))
    (fun t => t.pc == 0x202 && t.i == 5) = true := by decide

/-! Host events. -/

theorem test_tick_T6 : (({ State.reset with dt := 2, st := 1 }).tick.dt, ({ State.reset with dt := 2, st := 1 }).tick.st) = (1, 0) := by
  decide
theorem test_keyRelease_Y14 : (({ State.reset with wait := some 3 }).keyRelease 9).getV 3 = 9 ∧
    (({ State.reset with wait := some 3 }).keyRelease 9).wait = none := by decide
theorem test_reset_Z2 : (State.reset.resetWith [0x12, 0x00]).byte 0x200 = 0x12 ∧
    (State.reset.resetWith [0x12, 0x00]).mem = [(0x200, 0x12)] ∧ step (State.reset.resetWith [0x12, 0x00]) =
      .next { State.reset.resetWith [0x12, 0x00] with pc := 0x200 } := by
  refine ⟨by decide, by decide, rfl⟩
/-- The load port: an image byte written while `rst` is high is there after its falling edge. -/
theorem test_signals_load :
    let idle : Pins := ⟨false, false, 0, 0, false, false, false, false, false, 0, false, 0⟩
    let b := clockEdge idle (clockEdge { idle with rst := true, ldWe := true, ldAddr := 0x200, ldData := 0x12 }
      ⟨{ State.reset with fault := some .memRange }, false, []⟩)
    b.inReset = false ∧ b.block.fault = none ∧ b.block.byte 0x200 = 0x12 := by decide

/-! Witnesses: for every statement with hypotheses, a concrete input that meets all of them, at a boundary for each
clause. -/

theorem witness_DecodeUndoesEncode : WellFormed (.sys 0x0E1) ∧ WellFormed (.sys 0x0EF) ∧ WellFormed (.nop8 1 2 8) ∧
    WellFormed (.nop8 1 2 0xF) ∧ WellFormed (.nopE 1 0x9F) ∧ WellFormed (.nopF 1 0x64) ∧ WellFormed (.drw 1 2 0) := by decide
theorem witness_DecodeSelectsTableRow : ∃ r ∈ opcodeTable, ∃ r' ∈ opcodeTable, r.Fits 0x8124 ∧ r'.Fits 0x8124 ∧ r' ≠ r :=
  ⟨⟨"ADD_Vx__Vy", 0x8004, 0xF00F, 2⟩, by decide, ⟨"NOP8", 0x8000, 0xF000, 3⟩, by decide, by decide, by decide, by decide⟩
theorem witness_StepRunsDecodedInstruction : (at0 0x6A17).Running ∧ (at0 0x6A17).pc ≠ 0xFFF ∧
    decodeBytes [(at0 0x6A17).byte 0x200, (at0 0x6A17).byte 0x201] = .ok (.ldImm 0xA 0x17, []) := by decide
theorem witness_FetchAboveMemoryFaults : ({ State.reset with pc := 0xFFF }).Running := by decide
theorem witness_StepGatedByMode : ({ State.reset with fault := some .memRange }).fault ≠ none ∧
    ({ State.reset with wait := some 0xF }).wait ≠ none := by decide
theorem witness_UnrecognisedWordsOnlyAdvance : 0x8#4 ∈ [0x8#4, 0x9#4, 0xA#4, 0xB#4, 0xC#4, 0xD#4, 0xF#4] ∧
    0xF#4 ∈ [0x8#4, 0x9#4, 0xA#4, 0xB#4, 0xC#4, 0xD#4, 0xF#4] ∧ (0x9F#8 ≠ 0x9E ∧ 0x9F#8 ≠ 0xA1) ∧
    0x66#8 ∉ [0x07#8, 0x0A#8, 0x15#8, 0x18#8, 0x1E#8, 0x29#8, 0x33#8, 0x55#8, 0x65#8] := by decide
theorem witness_CallPushesReturnAddress : State.reset.sp ≠ 15 ∧ ({ State.reset with sp := 14 }).sp ≠ 15 := by decide
theorem witness_ReturnPopsAddress : ({ State.reset with sp := 1 }).sp ≠ 0 ∧ ({ State.reset with sp := 15 }).sp ≠ 0 := by decide
theorem witness_StackFaultsAreTaken : ({ State.reset with sp := 15 }).sp = 15 ∧ State.reset.sp = 0 := by decide
theorem witness_CallThenReturnComesBack : ({ State.reset with sp := 14 }).sp ≠ 15 ∧
    (3#4).toNat ≠ ({ State.reset with sp := 14 }).sp.toNat + 1 := by decide
theorem witness_RandomByteIsMasked : (State.reset.present (some 0xA5)).rndIn = some 0xA5 := by decide
theorem witness_SpriteIsXorBlit : ({ State.reset with i := 0xFFF }).i.toNat + (1#4).toNat ≤ 4096 ∧
    ({ State.reset with i := 0xFF1 }).i.toNat + (15#4).toNat ≤ 4096 ∧ State.reset.i.toNat + (0#4).toNat ≤ 4096 := by decide
/-- Glyph 0 at the origin over its own top left cell: a lit cell is covered. -/
theorem witness_SpriteSetsCollisionFlag : (withLit State.reset [(0, 0)]).i.toNat + (5#4).toNat ≤ 4096 ∧
    (∃ px < 64, ∃ py < 32, (withLit State.reset [(0, 0)]).Lit px py ∧ (withLit State.reset [(0, 0)]).SpriteCovers 0 1 5 px py) ∧
    ¬ ∃ px < 64, ∃ py < 32, State.reset.Lit px py ∧ State.reset.SpriteCovers 0 1 5 px py := by
  refine ⟨by decide, ⟨0, by decide, 0, by decide, ?_, 0, by decide, 0, by decide, by decide, by decide, by decide⟩, ?_⟩
  · unfold State.Lit; decide
  · rintro ⟨px, _, py, _, h, _⟩
    have h' : dispGet dispClear px py = true := h
    rw [dispGet_dispClear] at h'
    exact absurd h' (by decide)
/-- The first draw keeps both coordinates: the registers named are not VF. -/
theorem witness_DrawingTwiceRestoresDisplay : State.reset.i.toNat + (5#4).toNat ≤ 4096 ∧
    nextWith (exec (.drw 0 1 5) State.reset) (fun t => t.getV 0 == State.reset.getV 0 && t.getV 1 == State.reset.getV 1) = true := by
  decide
theorem witness_KeySkipsTestKeyState : ((State.reset.setV 1 0x0F).getV 1).toNat = (0xF#4).toNat ∧
    (State.reset.getV 1).toNat = (0#4).toNat := by decide
theorem witness_InputFaultsAreTaken : ((State.reset.setV 1 0x10).getV 1).toNat > 15 ∧
    (State.reset.present none).rndIn = none := by decide
theorem witness_TimerInstructionsMoveBytes : (State.reset.setV 1 0xFF).fault = none := by decide
theorem witness_BcdStoresThreeDigits : Memory.Wf ({ State.reset with i := 0xFFD }).mem ∧
    ({ State.reset with i := 0xFFD }).i.toNat + 2 ≤ 0xFFF := by decide
theorem witness_DumpStoresRegisters : Memory.Wf ({ State.reset with i := 0xFF0 }).mem ∧
    ({ State.reset with i := 0xFF0 }).i.toNat + (0xF#4).toNat ≤ 0xFFF ∧ (0xF#4).toNat ≤ (0xF#4).toNat ∧
    (0xFEF < ({ State.reset with i := 0xFF0 }).i.toNat) ∧ 0x1000 > ({ State.reset with i := 0xFF0 }).i.toNat + (0xF#4).toNat := by
  decide
theorem witness_LoadFillsRegisters : ({ State.reset with i := 0xFFF }).i.toNat + (0#4).toNat ≤ 0xFFF := by decide
theorem witness_MemoryRangeFaultsAreTaken : ((2#4).toNat ≥ 1 ∧ ({ State.reset with i := 0xFFF }).i.toNat + (2#4).toNat - 1 > 0xFFF) ∧
    ({ State.reset with i := 0xFFE }).i.toNat + 2 > 0xFFF ∧ ({ State.reset with i := 0xFFF }).i.toNat + (1#4).toNat > 0xFFF := by
  decide
theorem witness_DumpThenLoadReproduces : Memory.Wf ({ State.reset with i := 0x400 }).mem ∧
    ({ State.reset with i := 0x400 }).i.toNat + (3#4).toNat ≤ 0xFFF ∧
    nextWith (exec (.dump 3) { State.reset with i := 0x400 }) (fun t => ({ t with i := 0x400 }).mem == t.mem) = true := by decide
/-- `F055` at 0x200 with `I = 0x202` stores one byte over the next instruction (program P6), and `F033` at 0xFFE with
`I = 0` stores over the next fetch at 0x000. -/
theorem witness_NextFetchSeesStores :
    (({ at0 0xF055 with i := 0x202 }).Running ∧ Memory.Wf ({ at0 0xF055 with i := 0x202 }).mem ∧ (at0 0xF055).pc ≠ 0xFFF ∧
      ({ at0 0xF055 with i := 0x202 }).pcPlus 2 ≠ 0xFFF ∧
      decodeWord (({ at0 0xF055 with i := 0x202 }).wordAt 0x200) = .dump 0 ∧
      ({ at0 0xF055 with i := 0x202 }).i.toNat + (0#4).toNat ≤ 0xFFF) ∧
    ((({ State.reset with pc := 0xFFE }).withFetchWord 16 0xF033).Running ∧
      Memory.Wf (({ State.reset with pc := 0xFFE }).withFetchWord 16 0xF033).mem ∧
      (({ State.reset with pc := 0xFFE }).withFetchWord 16 0xF033).pcPlus 2 = 0 ∧
      decodeWord ((({ State.reset with pc := 0xFFE }).withFetchWord 16 0xF033).wordAt 0xFFE) = .ldB 0 ∧
      (({ State.reset with pc := 0xFFE }).withFetchWord 16 0xF033).i.toNat + 2 ≤ 0xFFF) := by decide
theorem witness_CanonicalMemoryIsUnique : Memory.Wf (at0 0x6A17).mem ∧
    ∀ a, Memory.read (at0 0x6A17).mem a = Memory.read (at0 0x6A17).mem a := ⟨by decide, fun _ => rfl⟩
theorem witness_TickCountsTimersDown : ({ State.reset with dt := 255 }).fault = none ∧ State.reset.fault = none := by decide
theorem witness_KeyEventsUpdateKeysAndLatch : ({ State.reset with wait := some 0xF }).fault = none ∧
    State.reset.fault = none ∧ State.reset.wait = none := by decide
theorem witness_WaitLiftedOnlyByReleaseOrReset : ({ State.reset with wait := some 0xF }).fault = none ∧
    ({ State.reset with wait := some 0xF }).wait = some 0xF := by decide
theorem witness_FaultedIsFrozenUntilReset : ({ State.reset with fault := some .loadError }).fault ≠ none := by decide
theorem witness_ResetLoadsImage : (List.replicate 3584 (0xAB : Byte)).length ≤ 3584 ∧ ([] : List Byte).length ≤ 3584 ∧
    0 < (List.replicate 3584 (0xAB : Byte)).length := by
  rw [List.length_replicate]
  decide
theorem witness_LongImageIsRejected : (List.replicate 3585 (0xAB : Byte)).length > 3584 := by
  rw [List.length_replicate]
  decide
theorem witness_ResetValuesOfEveryComponent : (80 : Nat) ≥ 80 := by decide
theorem witness_SameClockOrder : ((at0 0xF107).Running ∧ (at0 0xF107).pc ≠ 0xFFF ∧
      decodeWord ((at0 0xF107).wordAt 0x200) = .ldVxDt 1) ∧
    ((at0 0xF30A).Running ∧ decodeWord ((at0 0xF30A).wordAt 0x200) = .ldVxK 3) ∧
    (((at0 0xE19E).setV 1 0x0F).Running ∧ decodeWord (((at0 0xE19E).setV 1 0x0F).wordAt 0x200) = .skp 1 ∧
      (((at0 0xE19E).setV 1 0x0F).getV 1).toNat = (0xF#4).toNat) ∧
    nextWith (stepWith none (at0 0x00EE)) (fun t => t.fault == some .stackUnderflow) = true ∧
    nextWith (stepWith none (at0 0x6A17)) (fun t => t.fault == none) = true ∧
    (({ State.reset with pc := 0xFFF }).Running ∧ ({ State.reset with pc := 0xFFF }).pc = 0xFFF) := by decide
theorem witness_OutputsShowTheState : ({ State.reset with wait := some 0xF }).wait = some 0xF ∧ State.reset.wait = none := by decide
theorem witness_StepKeepsInvariant : State.reset.Inv ∧ nextWith (step State.reset) (fun _ => true) = true := by decide
theorem witness_EventsKeepInvariant : State.reset.Inv ∧
    nextWith (applyEvent (.keyRelease 3) State.reset) (fun _ => true) = true := by decide
/-- Each cause an instruction can raise, on its condition. -/
theorem witness_FaultsExactlyOnTheirConditions : State.reset.fault = none ∧ State.reset.RaisesOn .ret .stackUnderflow ∧
    ({ State.reset with sp := 15 }).RaisesOn (.call 0) .stackOverflow ∧
    (State.reset.present none).RaisesOn (.rnd 0 0) .entropy ∧ ({ State.reset with i := 0xFFF }).RaisesOn (.drw 0 0 2) .memRange ∧
    ({ State.reset with i := 0xFFE }).RaisesOn (.ldB 0) .memRange ∧ ({ State.reset with i := 0xFFF }).RaisesOn (.dump 1) .memRange ∧
    ({ State.reset with i := 0xFFF }).RaisesOn (.load 1) .memRange ∧ (State.reset.setV 1 0x10).RaisesOn (.skp 1) .keyIndex ∧
    (State.reset.setV 1 0x10).RaisesOn (.sknp 1) .keyIndex ∧
    nextWith (exec .ret State.reset) (fun t => t.fault == some .stackUnderflow) = true := by
  refine ⟨?_, ?_, ?_, ?_, ?_, ?_, ?_, ?_, ?_, ?_, ?_⟩ <;> first | decide | (unfold State.RaisesOn; decide)
/-- For each component, an instruction that does change it. -/
theorem witness_OnlyTheseInstructionsWrite :
    nextWith (exec (.ldB 0) ({ State.reset.setV 0 157 with i := 0x300 })) (fun t => t.mem != []) = true ∧
    nextWith (exec (.ldImm 1 7) State.reset) (fun t => t.v != State.reset.v) = true ∧
    nextWith (exec (.jp 0x300) State.reset) (fun t => t.pc != State.reset.pc) = true ∧
    nextWith (exec .ret State.reset) (fun t => t.fault != State.reset.fault) = true ∧
    nextWith (exec (.ldI 0x123) State.reset) (fun t => t.i != State.reset.i) = true ∧
    nextWith (exec (.call 0x300) State.reset) (fun t => t.stack != State.reset.stack && t.sp != State.reset.sp) = true ∧
    nextWith (exec (.drw 0 0 1) State.reset) (fun t => dispGet t.disp 0 0 != dispGet State.reset.disp 0 0) = true ∧
    nextWith (exec (.ldDtVx 0) (State.reset.setV 0 1)) (fun t => t.dt != State.reset.dt) = true ∧
    nextWith (exec (.ldStVx 0) (State.reset.setV 0 1)) (fun t => t.st != State.reset.st) = true ∧
    nextWith (exec (.ldVxK 0) State.reset) (fun t => t.wait != State.reset.wait) = true ∧
    nextWith (exec (.rnd 0 0) State.reset) (fun t => t.rndDraws != State.reset.rndDraws) = true := by decide
theorem witness_RegistersWrittenAreDestinations : writesRegister (.addImm 1 1) 0xF = false ∧
    nextWith (exec (.addImm 1 1) State.reset) (fun _ => true) = true := by decide
theorem witness_OnlyRndReadsTheRandomPort : ∀ x nn, Instr.addImm 1 1 ≠ .rnd x nn := by intro x nn h; cases h

end Sys2Proof.Tests
end

section
/-! PROOFS. What an instruction can do, said once: it raises one cause on the cause's condition, or it completes in one
of a few shapes. -/

namespace Sys2Proof.Machine

/-- How an instruction that raises no cause may end. The first four shapes are shared: each bounds what many
instructions do, and of the registers it names it says only that the instruction may write them. The others are one
instruction's own and exact. -/
inductive Completes (s : State) : Instr → State → Prop
  | advance (i : Instr) : Completes s i s.advance
  | skip (i : Instr) (c : Bool) : Completes s i (s.skipIf c)
  | register {i : Instr} {x : Nibble} (b : Byte) (hx : writesRegister i x = true) : Completes s i (s.setV x b).advance
  | resultFlag {i : Instr} {x : Nibble} (b f : Byte) (hx : writesRegister i x = true)
      (hf : writesRegister i vfIndex = true) : Completes s i (s.setResultFlag x b f).advance
  | cls : Completes s .cls { s with disp := dispClear }.advance
  | ret (hsp : s.sp ≠ 0) : Completes s .ret { s.jump (s.getStack s.sp) with sp := s.sp - 1 }
  | jp (nnn : Addr) : Completes s (.jp nnn) (s.jump nnn)
  | call (nnn : Addr) (hsp : s.sp ≠ 15) :
      Completes s (.call nnn) ({ s.setStack (s.sp + 1) s.returnAddress with sp := s.sp + 1 }.jump nnn)
  | ldI (nnn : Addr) : Completes s (.ldI nnn) { s with i := nnn }.advance
  | jpV0 (nnn : Addr) : Completes s (.jpV0 nnn) (s.jump (s.offsetTarget nnn))
  | rnd (x : Nibble) (nn : Byte) {r : Byte} (hr : s.rndIn = some r) :
      Completes s (.rnd x nn) ((s.setV x (r &&& nn)).drawn).advance
  | drw (x y n : Nibble) : Completes s (.drw x y n) ({ s with disp := (s.spriteCanvas x y n).1 }.setV vfIndex
      (collisionFlag Config.collisionPolicy (s.spriteCanvas x y n).2)).advance
  | ldVxK (x : Nibble) : Completes s (.ldVxK x) { s with wait := some x }.advance
  | ldDtVx (x : Nibble) : Completes s (.ldDtVx x) { s with dt := s.getV x }.advance
  | ldStVx (x : Nibble) : Completes s (.ldStVx x) { s with st := s.getV x }.advance
  | addI (x : Nibble) : Completes s (.addI x) { s with i := s.indexPlus x }.advance
  | ldF (x : Nibble) : Completes s (.ldF x) { s with i := glyphAddress (s.getV x) }.advance
  | ldB (x : Nibble) : Completes s (.ldB x) (((s.setByte (s.dataAddress 0) (hundreds (s.getV x))).setByte
      (s.dataAddress 1) (tens (s.getV x))).setByte (s.dataAddress 2) (ones (s.getV x))).advance
  | dump (x : Nibble) : Completes s (.dump x) ((s.dumpTo (s.dataAddress 0) (x.toNat + 1)).bumpIndex x).advance
  | load (x : Nibble) : Completes s (.load x) ((s.loadFrom (s.dataAddress 0) (x.toNat + 1)).bumpIndex x).advance

/-- An instruction's answer is the raise of a cause that is due, or a completion with no cause due. -/
def Ends (i : Instr) (s : State) (r : Result) : Prop :=
  (∃ c, s.RaisesOn i c ∧ r = .next (s.raise c)) ∨ ((∀ c, ¬ s.RaisesOn i c) ∧ ∃ t, Completes s i t ∧ r = .next t)

theorem Ends.of_completes {i : Instr} {s t : State} (hno : ∀ c, ¬ s.RaisesOn i c) (h : Completes s i t) :
    Ends i s (.next t) := .inr ⟨hno, t, h, rfl⟩

/-- An instruction that checks the condition of its one cause first. -/
theorem Ends.of_check {i : Instr} {s t : State} {c : Fault} {p : Prop} [Decidable p]
    (hon : ∀ d, s.RaisesOn i d ↔ d = c ∧ p) (h : ¬ p → Completes s i t) :
    Ends i s (if p then .next (s.raise c) else .next t) := by
  by_cases hp : p
  · rw [if_pos hp]
    exact .inl ⟨c, (hon c).2 ⟨rfl, hp⟩, rfl⟩
  · rw [if_neg hp]
    exact .of_completes (fun d hd => hp ((hon d).1 hd).2) (h hp)

/-! The one cause of each instruction that has one. -/

theorem State.raisesOn_ret (s : State) (c : Fault) : s.RaisesOn .ret c ↔ c = .stackUnderflow ∧ s.sp = 0 := by
  cases c <;> simp [State.RaisesOn]

theorem State.raisesOn_call (s : State) (nnn : Addr) (c : Fault) :
    s.RaisesOn (.call nnn) c ↔ c = .stackOverflow ∧ s.sp = 15 := by
  cases c <;> simp [State.RaisesOn]

theorem State.raisesOn_rnd (s : State) (x : Nibble) (nn : Byte) (c : Fault) :
    s.RaisesOn (.rnd x nn) c ↔ c = .entropy ∧ s.rndIn = none := by
  cases c <;> simp [State.RaisesOn]

theorem State.raisesOn_drw (s : State) (x y n : Nibble) (c : Fault) :
    s.RaisesOn (.drw x y n) c ↔ c = .memRange ∧ n ≠ 0 ∧ s.i.toNat + (n.toNat - 1) > 0xFFF := by
  have hn : n ≠ 0 ↔ n.toNat ≥ 1 := by rw [ne_eq, ← BitVec.toNat_inj]; exact Nat.pos_iff_ne_zero.symm
  rw [hn]
  cases c <;> simp [State.RaisesOn]
  omega

theorem State.raisesOn_ldB (s : State) (x : Nibble) (c : Fault) :
    s.RaisesOn (.ldB x) c ↔ c = .memRange ∧ s.i.toNat + 2 > 0xFFF := by
  cases c <;> simp [State.RaisesOn]

theorem State.raisesOn_dump (s : State) (x : Nibble) (c : Fault) :
    s.RaisesOn (.dump x) c ↔ c = .memRange ∧ s.i.toNat + x.toNat > 0xFFF := by
  cases c <;> simp [State.RaisesOn]

theorem State.raisesOn_load (s : State) (x : Nibble) (c : Fault) :
    s.RaisesOn (.load x) c ↔ c = .memRange ∧ s.i.toNat + x.toNat > 0xFFF := by
  cases c <;> simp [State.RaisesOn]

theorem State.raisesOn_skp (s : State) (x : Nibble) (c : Fault) :
    s.RaisesOn (.skp x) c ↔ c = .keyIndex ∧ (s.getV x).toNat > 15 := by
  cases c <;> simp [State.RaisesOn]

theorem State.raisesOn_sknp (s : State) (x : Nibble) (c : Fault) :
    s.RaisesOn (.sknp x) c ↔ c = .keyIndex ∧ (s.getV x).toNat > 15 := by
  cases c <;> simp [State.RaisesOn]

theorem execRnd_ends (x : Nibble) (nn : Byte) (s : State) : Ends (.rnd x nn) s (execRnd x nn s) := by
  unfold execRnd
  cases hr : s.rndIn with
  | none => exact .inl ⟨.entropy, (s.raisesOn_rnd x nn _).2 ⟨rfl, hr⟩, rfl⟩
  | some r => exact .of_completes (fun c hc => by simp [State.raisesOn_rnd, hr] at hc) (.rnd x nn hr)

/-- Only a sprite with at least one row is checked against the end of memory. -/
theorem execDrw_ends (x y n : Nibble) (s : State) : Ends (.drw x y n) s (execDrw x y n s) := by
  by_cases hn : n = 0
  · rw [execDrw, if_pos hn]
    exact .of_completes (fun c hc => ((s.raisesOn_drw x y n c).1 hc).2.1 hn) (.drw x y n)
  · rw [execDrw, if_neg hn]
    exact .of_check (fun c => by rw [State.raisesOn_drw, and_iff_right hn]) fun _ => .drw x y n

/-- Everything an instruction can do, for every instruction. -/
theorem exec_ends (i : Instr) (s : State) : Ends i s (exec i s) := by
  cases i with
  | sys | nop8 | nopE | nopF => exact .of_completes (fun _ => nofun) (.advance _)
  | seImm | sneImm | seReg | sneReg => exact .of_completes (fun _ => nofun) (.skip _ _)
  | ldImm x | addImm x | ldReg x | ldVxDt x =>
    exact .of_completes (fun _ => nofun) (.register _ (beq_self_eq_true x))
  | orReg | andReg | xorReg | addReg | subReg | shrReg | subnReg | shlReg =>
    exact .of_completes (fun _ => nofun)
      (.resultFlag _ _ (by simp [writesRegister]) (by simp [writesRegister, vfIndex]))
  | skp x => exact .of_check (s.raisesOn_skp x) fun _ => .skip _ _
  | sknp x => exact .of_check (s.raisesOn_sknp x) fun _ => .skip _ _
  | cls => exact .of_completes (fun _ => nofun) .cls
  | ret => exact .of_check s.raisesOn_ret .ret
  | jp nnn => exact .of_completes (fun _ => nofun) (.jp nnn)
  | call nnn => exact .of_check (s.raisesOn_call nnn) (.call nnn)
  | ldI nnn => exact .of_completes (fun _ => nofun) (.ldI nnn)
  | jpV0 nnn => exact .of_completes (fun _ => nofun) (.jpV0 nnn)
  | rnd x nn => exact execRnd_ends x nn s
  | drw x y n => exact execDrw_ends x y n s
  | ldVxK x => exact .of_completes (fun _ => nofun) (.ldVxK x)
  | ldDtVx x => exact .of_completes (fun _ => nofun) (.ldDtVx x)
  | ldStVx x => exact .of_completes (fun _ => nofun) (.ldStVx x)
  | addI x => exact .of_completes (fun _ => nofun) (.addI x)
  | ldF x => exact .of_completes (fun _ => nofun) (.ldF x)
  | ldB x => exact .of_check (s.raisesOn_ldB x) fun _ => .ldB x
  | dump x => exact .of_check (s.raisesOn_dump x) fun _ => .dump x
  | load x => exact .of_check (s.raisesOn_load x) fun _ => .load x

/-- The inversion of `exec` that proofs about all instructions start from. -/
theorem exec_cases {i : Instr} {s t : State} (h : exec i s = .next t) :
    (∃ c, s.RaisesOn i c ∧ t = s.raise c) ∨ ((∀ c, ¬ s.RaisesOn i c) ∧ Completes s i t) := by
  rcases exec_ends i s with ⟨c, hc, he⟩ | ⟨hno, u, hu, he⟩
  · exact .inl ⟨c, hc, Host.Outcome.next.inj (h.symm.trans he)⟩
  · obtain rfl : t = u := Host.Outcome.next.inj (h.symm.trans he)
    exact .inr ⟨hno, hu⟩

end Sys2Proof.Machine
end

section
/-! PROOFS. What completing an instruction may change (10_state.md R27), and the invariant that every Step keeps. -/

namespace Sys2Proof.Machine

theorem Completes.fault {s t : State} {i : Instr} (h : Completes s i t) : t.fault = s.fault := by
  cases h with
  | skip => exact s.skipIf_fault _
  | dump => rw [State.dumpTo_eq]; rfl
  | load => rw [State.loadFrom_eq]; rfl
  | _ => rfl

theorem ne_of_writesRegister {i : Instr} {x r : Nibble} (hx : writesRegister i x = true)
    (hr : writesRegister i r = false) : x ≠ r := by
  rintro rfl
  exact Bool.false_ne_true (hr.symm.trans hx)

theorem Completes.getV {s t : State} {i : Instr} (h : Completes s i t) {r : Nibble}
    (hr : writesRegister i r = false) : t.getV r = s.getV r := by
  cases h with
  | skip _ c => cases c <;> rfl
  | register b hx => exact (s.getV_setV _ r b).trans (if_neg (ne_of_writesRegister hx hr))
  | resultFlag b f hx hf =>
    rw [State.getV_advance, State.getV_setResultFlag, if_neg (ne_of_writesRegister hf hr).symm,
      if_neg (ne_of_writesRegister hx hr).symm]
  | rnd x nn => exact (s.getV_setV x r _).trans (if_neg (ne_of_writesRegister (i := .rnd x nn) (beq_self_eq_true x) hr))
  | drw => exact (State.getV_setV _ vfIndex r _).trans (if_neg (ne_of_writesRegister rfl hr))
  | dump x => exact s.getV_dumpTo _ _ r
  | load x =>
    have hlt : ¬ r.toNat < x.toNat + 1 := fun hlt => of_decide_eq_false hr (Nat.le_of_lt_succ hlt)
    exact (s.getV_loadFrom _ x.isLt r).trans (if_neg hlt)
  | _ => rfl

theorem Completes.mem_wf {s t : State} {i : Instr} (h : Completes s i t) (hm : Memory.Wf s.mem) : Memory.Wf t.mem := by
  cases h with
  | skip => rwa [State.skipIf_mem]
  | ldB => exact Memory.write_wf (Memory.write_wf (Memory.write_wf hm _ _) _ _) _ _
  | dump => exact State.dumpTo_wf hm _ _
  | load => rwa [State.loadFrom_eq]
  | _ => exact hm

/-- `CALL` pushes at `SP + 1`, which below the limit is not entry 0. -/
theorem Completes.getStack_zero {s t : State} {i : Instr} (h : Completes s i t) : t.getStack 0 = s.getStack 0 := by
  cases h with
  | skip _ c => cases c <;> rfl
  | call nnn hsp =>
    exact (s.getStack_setStack (s.sp + 1) 0 _).trans (if_neg (by bv_omega))
  | dump => rw [State.dumpTo_eq]; rfl
  | load => rw [State.loadFrom_eq]; rfl
  | _ => rfl

/-! The invariant. -/

theorem State.raise_inv {s : State} (h : s.Inv) (hw : s.wait = none) (c : Fault) : (s.raise c).Inv := by
  obtain ⟨hm, -, hst⟩ := h
  exact ⟨hm, fun _ => hw, hst⟩

theorem Completes.inv {s t : State} {i : Instr} (h : Completes s i t) (hr : s.Running) (hs : s.Inv) : t.Inv := by
  obtain ⟨hm, -, hst⟩ := hs
  exact ⟨h.mem_wf hm, fun hf => absurd (h.fault.trans hr.1) hf, h.getStack_zero.trans hst⟩

theorem exec_inv {s t : State} {i : Instr} (h : exec i s = .next t) (hr : s.Running) (hs : s.Inv) : t.Inv := by
  rcases exec_cases h with ⟨c, -, rfl⟩ | ⟨-, hc⟩
  · exact State.raise_inv hs hr.2 c
  · exact hc.inv hr hs

/-- Settles O53: the gate leaves the state alone, FETCH_RANGE is a raise while no register waits, and an instruction
raises or completes. -/
theorem stepKeepsInvariant : Obligations.StepKeepsInvariant := by
  intro s t hs h
  rcases step_cases s with ⟨-, he⟩ | ⟨hr, -, he⟩ | ⟨hr, -, he⟩
  · obtain rfl : t = s := Host.Outcome.next.inj (h.symm.trans he)
    exact hs
  · obtain rfl : t = s.raise .fetchRange := Host.Outcome.next.inj (h.symm.trans he)
    exact State.raise_inv hs hr.2 _
  · exact exec_inv (he.symm.trans h) hr hs

/-! What an instruction may write. -/

/-- Settles O59: a raise writes no register, and completing writes only those of `writesRegister`. -/
theorem registersWrittenAreDestinations : Obligations.RegistersWrittenAreDestinations := by
  intro i s t r h hr
  rcases exec_cases h with ⟨c, -, rfl⟩ | ⟨-, hc⟩
  · rfl
  · exact hc.getV hr

theorem Completes.exists_writesRegister {s t : State} {i : Instr} (h : Completes s i t) (hv : t.v ≠ s.v) :
    ∃ r, writesRegister i r = true := by
  by_contra hno
  simp only [not_exists, Bool.not_eq_true] at hno
  exact hv (Vector.ext fun k hk => h.getV (hno ⟨⟨k, hk⟩⟩))

theorem Completes.pc {s t : State} {i : Instr} (h : Completes s i t) :
    t.pc = s.pcPlus 2 ∨ t.pc = s.pcPlus 4 ∨
      i = .ret ∨ (∃ n, i = .jp n) ∨ (∃ n, i = .call n) ∨ ∃ n, i = .jpV0 n := by
  cases h with
  | skip _ c => cases c <;> simp [State.pcPlus_eq]
  | ret | jp | call | jpV0 => simp
  | dump => left; rw [State.dumpTo_eq, State.pcPlus_eq]; rfl
  | load => left; rw [State.loadFrom_eq, State.pcPlus_eq]; rfl
  | _ => exact .inl (s.pcPlus_eq 2).symm

/-- Beside the registers, `PC` and the fault register: which instruction may have changed a component. -/
theorem Completes.components {s t : State} {i : Instr} (h : Completes s i t) :
    (t.mem ≠ s.mem → (∃ x, i = .ldB x) ∨ ∃ x, i = .dump x) ∧
    (t.i ≠ s.i → (∃ n, i = .ldI n) ∨ (∃ x, i = .addI x) ∨ (∃ x, i = .ldF x) ∨ (∃ x, i = .dump x) ∨ ∃ x, i = .load x) ∧
    (t.stack ≠ s.stack → ∃ n, i = .call n) ∧ (t.sp ≠ s.sp → (∃ n, i = .call n) ∨ i = .ret) ∧
    (t.disp ≠ s.disp → i = .cls ∨ ∃ x y n, i = .drw x y n) ∧
    (t.dt ≠ s.dt → ∃ x, i = .ldDtVx x) ∧ (t.st ≠ s.st → ∃ x, i = .ldStVx x) ∧ t.key = s.key ∧
    (t.wait ≠ s.wait → ∃ x, i = .ldVxK x) ∧
    (t.rndIn ≠ s.rndIn ∨ t.rndDraws ≠ s.rndDraws → ∃ x nn, i = .rnd x nn) := by
  cases h with
  | resultFlag => rw [State.setResultFlag_eq]; simp
  | dump => rw [State.dumpTo_eq]; simp
  | load => rw [State.loadFrom_eq]; simp
  | _ => simp

/-- Settles O58: a raise writes the fault register alone, and completing is bounded component by component. -/
theorem onlyTheseInstructionsWrite : Obligations.OnlyTheseInstructionsWrite := by
  intro i s t h
  rcases exec_cases h with ⟨c, hc, rfl⟩ | ⟨-, hc⟩
  · simpa using fun _ : some c ≠ s.fault => hc
  · obtain ⟨hmem, hi, hstack, hsp, hdisp, hdt, hst, hkey, hwait, hrnd⟩ := hc.components
    exact ⟨hmem, hc.exists_writesRegister, hi, fun _ => ⟨hc.fault, hc.pc⟩, hstack, hsp, hdisp, hdt, hst, hkey, hwait,
      fun hne => absurd hc.fault hne, hrnd⟩

end Sys2Proof.Machine
end

section
/-! PROOFS. A canonical memory is determined by what it reads (10_state.md R17). -/

namespace Sys2Proof.Machine

/-- A cell that reads as something other than the reset content is listed. -/
theorem Memory.mem_of_read_ne_base {m : List Host.Cell} {a : Nat} (h : Memory.read m a ≠ Memory.base a) :
    (a, Memory.read m a) ∈ m := by
  induction m with
  | nil => exact absurd rfl h
  | cons c m ih =>
    obtain ⟨k, b⟩ := c
    by_cases hk : k = a
    · simp [Memory.read, hk]
    · simp only [Memory.read, hk, if_false] at h ⊢
      exact List.mem_cons_of_mem _ (ih h)

/-- A listed cell is what its address reads as. -/
theorem Memory.read_of_mem {m : List Host.Cell} (hm : m.Pairwise (fun c d => c.1 < d.1)) {c : Host.Cell}
    (hc : c ∈ m) : Memory.read m c.1 = c.2 := by
  induction m with
  | nil => cases hc
  | cons d m ih =>
    obtain ⟨hlt, hm⟩ := List.pairwise_cons.1 hm
    rcases List.mem_cons.1 hc with rfl | hc
    · exact if_pos rfl
    · exact (if_neg (hlt c hc).ne).trans (ih hm hc)

/-- The cells of a canonical memory are the reads that differ from the reset content. -/
theorem Memory.mem_iff_read {m : List Host.Cell} (h : Memory.Wf m) (c : Host.Cell) :
    c ∈ m ↔ Memory.read m c.1 = c.2 ∧ c.2 ≠ Memory.base c.1 := by
  constructor
  · exact fun hc => ⟨Memory.read_of_mem h.1 hc, (h.2 c hc).2⟩
  · rintro ⟨hr, hne⟩
    have hc := Memory.mem_of_read_ne_base (hr ▸ hne)
    rwa [hr] at hc

/-- Settles O43: a canonical memory lists exactly the reads that differ from the reset content, in rising order. -/
theorem canonicalMemoryIsUnique : Obligations.CanonicalMemoryIsUnique := by
  intro m m' hm hm' hread
  have : Std.Irrefl fun c d : Host.Cell => c.1 < d.1 := ⟨fun c => lt_irrefl c.1⟩
  have : Std.Antisymm fun c d : Host.Cell => c.1 < d.1 := ⟨fun c d h h' => absurd h' h.asymm⟩
  refine hm.1.eq_of_mem_iff hm'.1 fun c => ?_
  rw [Memory.mem_iff_read hm, Memory.mem_iff_read hm', hread]

end Sys2Proof.Machine
end

section
/-! PROOFS. Reset and the values it leaves (10_state.md R26). -/

namespace Sys2Proof.Machine

theorem State.resetWith_short (s : State) {image : List Byte} (h : image.length ≤ Config.maxImage) :
    s.resetWith image = s.powerUp (loadedMemory image) none := if_neg (by omega)

theorem State.resetWith_long (s : State) {image : List Byte} (h : image.length > Config.maxImage) :
    s.resetWith image = s.powerUp [] (some .loadError) := if_pos h

theorem State.resetWith_cases (s : State) (image : List Byte) :
    ∃ mem fault, Memory.Wf mem ∧ s.resetWith image = s.powerUp mem fault := by
  by_cases h : image.length ≤ Config.maxImage
  · exact ⟨_, _, loadedMemory_wf image, s.resetWith_short h⟩
  · exact ⟨_, _, Memory.nil_wf, s.resetWith_long (by omega)⟩

@[simp] theorem State.resetWith_wait (s : State) (image : List Byte) : (s.resetWith image).wait = none := by
  obtain ⟨mem, fault, -, h⟩ := s.resetWith_cases image
  rw [h]
  rfl

/-- Settles O48: the image's bytes read back from the loaded memory, and every other field is that of the reset state. -/
theorem resetLoadsImage : Obligations.ResetLoadsImage := by
  intro s image h
  have hread := read_loadedMemory h
  rw [s.resetWith_short h]
  refine ⟨rfl, loadedMemory_wf image, fun k hk => ?_, fun a ha => ?_⟩
  · refine (hread _).trans ?_
    rw [if_pos (by omega), Nat.add_sub_cancel_left]
  · exact (hread a).trans (if_neg (by omega))

@[simp] theorem State.getV_reset (r : Nibble) : State.reset.getV r = 0 := by simp [State.getV, State.reset]

@[simp] theorem State.getStack_reset (k : Nibble) : State.reset.getStack k = 0 := by simp [State.getStack, State.reset]

@[simp] theorem State.getKey_reset (k : Nibble) : State.reset.getKey k = false := by simp [State.getKey, State.reset]

theorem State.reset_not_lit (px py : Nat) : ¬ State.reset.Lit px py := ne_true_of_eq_false (dispGet_dispClear px py)

theorem State.powerUp_inv (s : State) {mem : List Host.Cell} (h : Memory.Wf mem) (fault : Option Fault) :
    (s.powerUp mem fault).Inv := ⟨h, fun _ => rfl, State.getStack_reset 0⟩

/-- Settles O54: the loaded memory is canonical, and Reset leaves no wait and a zero stack. -/
theorem invariantHoldsAtReset : Obligations.InvariantHoldsAtReset := by
  refine ⟨⟨State.reset_memory_wf, fun _ => rfl, State.getStack_reset 0⟩, fun s image => ?_⟩
  obtain ⟨mem, fault, hm, h⟩ := s.resetWith_cases image
  exact h ▸ s.powerUp_inv hm fault

theorem Memory.base_of_ge {a : Nat} (h : 80 ≤ a) : Memory.base a = 0 :=
  List.getD_eq_default _ _ h

/-- Settles O50: the registers, the display and memory above the font hold zeros, and the 80 font bytes are compared one
by one. -/
theorem resetValuesOfEveryComponent : Obligations.ResetValuesOfEveryComponent :=
  ⟨fun r => ⟨State.getV_reset r, State.getStack_reset r, State.getKey_reset r⟩, rfl, rfl, rfl, rfl, rfl, rfl, rfl, rfl,
    State.reset_not_lit, fun _ => Memory.base_of_ge, by decide⟩

end Sys2Proof.Machine
end

section
/-! PROOFS. The events of a block that is not Faulted, and CALL below the stack limit. -/

namespace Sys2Proof.Machine

theorem State.tick_of_unfaulted {s : State} (h : s.fault = none) :
    s.tick = { s with dt := countDown s.dt, st := countDown s.st } := by
  simp [State.tick, h]

theorem State.keyPress_of_unfaulted {s : State} (h : s.fault = none) (k : Nibble) :
    s.keyPress k = s.setKey k true := by
  simp [State.keyPress, h]

theorem State.keyRelease_of_waiting {s : State} {r : Nibble} (h : s.fault = none) (hw : s.wait = some r) (k : Nibble) :
    s.keyRelease k = { (s.setKey k false).setV r (k.setWidth 8) with wait := none } := by
  simp [State.keyRelease, State.resolveLatch, h, hw]

theorem stepWith_of_waiting {s : State} {r : Nibble} (h : s.fault = none) (hw : s.wait = some r) (b : Option Byte) :
    stepWith b s = .next s := by
  simp [stepWith, State.mode, h, hw]

/-- Settles O46: of the events only a release and Reset write the latch of a waiting block. -/
theorem waitLiftedOnlyByReleaseOrReset : Obligations.WaitLiftedOnlyByReleaseOrReset := by
  intro s r hf hw
  rw [State.tick_of_unfaulted hf]
  refine ⟨stepWith_of_waiting hf hw, hw, rfl, rfl, fun k => ?_, fun k => ?_, s.resetWith_wait⟩
  · rw [State.keyPress_of_unfaulted hf]
    exact ⟨hw, rfl, rfl⟩
  · rw [State.keyRelease_of_waiting hf hw]
    refine ⟨rfl, rfl, ?_⟩
    have hv : (s.setV r (k.setWidth 8)).getV r = k.setWidth 8 := s.getV_setV_self r _
    exact (congrArg BitVec.toNat hv).trans (BitVec.toNat_setWidth_of_le (by decide))

/-- Settles O13: below the limit `SP + 1` does not wrap, so it is one entry that is written, the new top. -/
theorem callPushesReturnAddress : Obligations.CallPushesReturnAddress := by
  intro s nnn h
  have hsp : (s.sp + 1).toNat = s.sp.toNat + 1 := by bv_omega
  refine ⟨_, if_neg h, rfl, hsp, fun k => ?_⟩
  refine (s.getStack_setStack (s.sp + 1) k _).trans (if_congr ?_ (s.pcPlus_eq 2).symm rfl)
  rw [← BitVec.toNat_inj, hsp, eq_comm]

end Sys2Proof.Machine
end

section
/-! PROOFS. A memory store is seen by the very next fetch (20_memory.md R52). -/

namespace Sys2Proof.Machine

/-- A Step that is neither gated nor out of fetch range (40_flow.md R80). -/
theorem step_of_running {s : State} (hr : s.Running) (hp : s.pc ≠ 0xFFF) :
    step s = exec (decodeWord (s.wordAt s.pc.toNat)) s := by
  rw [step, State.mode_running hr, State.fetch_eq hp]

/-- The same Step, with the memory it fetches from given byte by byte. -/
theorem step_eq_exec_of_byte {t : State} {pc : Addr} {f : Nat → Byte} (hr : t.Running) (hpc : t.pc = pc)
    (hp : pc ≠ 0xFFF) (hf : ∀ a, t.byte a = f a) :
    step t = exec (decodeWord (f pc.toNat ++ f (pc.toNat + 1))) t := by
  subst hpc
  rw [step_of_running hr hp, State.wordAt, hf, hf]

theorem exec_dump_inside {s : State} {x : Nibble} (h : s.i.toNat + x.toNat ≤ 0xFFF) :
    exec (.dump x) s = .next ((s.dumpTo (s.dataAddress 0) (x.toNat + 1)).bumpIndex x).advance :=
  State.guardRange_inside _ h

theorem exec_ldB_inside {s : State} {x : Nibble} (h : s.i.toNat + 2 ≤ 0xFFF) :
    exec (.ldB x) s = .next (((s.setByte (s.dataAddress 0) (hundreds (s.getV x))).setByte
      (s.dataAddress 1) (tens (s.getV x))).setByte (s.dataAddress 2) (ones (s.getV x))).advance :=
  State.guardRange_inside _ h

/-- The three digits of `LD B, Vx` as claims write them: the addresses differ, so the order of the stores is not
seen. -/
theorem State.byte_setByte_eq_bcdByte {s : State} (h : Memory.Wf s.mem) {x : Nibble} (hi : s.i.toNat + 2 ≤ 0xFFF)
    (a : Nat) : (((s.setByte (s.dataAddress 0) (hundreds (s.getV x))).setByte (s.dataAddress 1)
      (tens (s.getV x))).setByte (s.dataAddress 2) (ones (s.getV x))).byte a = s.bcdByte x a := by
  have hlt : ∀ k ≤ 2, s.dataAddress k < Config.memSize := fun k hk => by
    simp only [State.dataAddress, Config.memSize]; omega
  have hm := Memory.write_wf h (s.dataAddress 0) (hundreds (s.getV x))
  have hm' := Memory.write_wf hm (s.dataAddress 1) (tens (s.getV x))
  rw [State.byte_setByte hm' (hlt 2 (by omega)), State.byte_setByte hm (hlt 1 (by omega)),
    State.byte_setByte h (hlt 0 (by omega))]
  simp only [State.dataAddress, State.bcdByte, eq_comm (b := a), Nat.add_zero]
  obtain rfl | rfl | rfl | ⟨h0, h1, h2⟩ : a = s.i.toNat ∨ a = s.i.toNat + 1 ∨ a = s.i.toNat + 2 ∨
      (a ≠ s.i.toNat ∧ a ≠ s.i.toNat + 1 ∧ a ≠ s.i.toNat + 2) := by omega
  · simp [hundreds]
  · simp [tens]
  · simp [ones]
  · simp [h0, h1, h2]

/-- Settles O42: either store keeps the mode and goes to the next address, and every byte then reads as the claim
writes it, the two that are fetched among them. -/
theorem nextFetchSeesStores : Obligations.NextFetchSeesStores := by
  intro s x hr hm hp hnext
  constructor
  · intro hdec hi
    refine ⟨_, (step_of_running hr hp).trans (hdec ▸ exec_dump_inside hi), step_eq_exec_of_byte ?_ ?_ hnext ?_⟩
    · rw [State.dumpTo_eq]
      exact hr
    · rw [State.dumpTo_eq, State.pcPlus_eq]
      rfl
    · exact State.byte_dumpTo_eq_dumpedByte hm hi
  · intro hdec hi
    refine ⟨_, (step_of_running hr hp).trans (hdec ▸ exec_ldB_inside hi), step_eq_exec_of_byte ?_ ?_ hnext ?_⟩
    · exact hr
    · exact (s.pcPlus_eq 2).symm
    · exact State.byte_setByte_eq_bcdByte hm hi

end Sys2Proof.Machine
end

section
/-! PROOFS. The decoder and the encoder undo each other (30_encoding.md R60 to R68). -/

namespace Sys2Proof

theorem decodeWord_family8 (x y n : Nibble) : decodeWord (0x8#4 ++ x ++ y ++ n) = decodeFamily8 x y n := by
  simp [decodeWord_xyn, decodeHighNibble, fields_xyn]

theorem decodeWord_familyE (x : Nibble) (nn : Byte) : decodeWord (0xE#4 ++ x ++ nn) = decodeFamilyE x nn := by
  simp [decodeWord_xnn, decodeHighNibble, fields_xnn]

theorem decodeWord_familyF (x : Nibble) (nn : Byte) : decodeWord (0xF#4 ++ x ++ nn) = decodeFamilyF x nn := by
  simp [decodeWord_xnn, decodeHighNibble, fields_xnn]

/-! The catch-all rows take what the specific rows leave (30_encoding.md R64, R70, R71). -/

theorem wellFormed_sys {nnn : Addr} : WellFormed (.sys nnn) ↔ nnn ≠ 0x0E0#12 ∧ nnn ≠ 0x0EE#12 := by
  simp [WellFormed, Instr.wf]

theorem wellFormed_nop8 {x y n : Nibble} : WellFormed (.nop8 x y n) ↔
    n ≠ 0x0#4 ∧ n ≠ 0x1#4 ∧ n ≠ 0x2#4 ∧ n ≠ 0x3#4 ∧ n ≠ 0x4#4 ∧ n ≠ 0x5#4 ∧ n ≠ 0x6#4 ∧ n ≠ 0x7#4 ∧ n ≠ 0xE#4 := by
  simp only [WellFormed, Instr.wf]
  revert n
  decide

theorem wellFormed_nopE {x : Nibble} {nn : Byte} : WellFormed (.nopE x nn) ↔ nn ≠ 0x9E#8 ∧ nn ≠ 0xA1#8 := by
  simp [WellFormed, Instr.wf]

theorem wellFormed_nopF {x : Nibble} {nn : Byte} : WellFormed (.nopF x nn) ↔
    nn ≠ 0x07#8 ∧ nn ≠ 0x0A#8 ∧ nn ≠ 0x15#8 ∧ nn ≠ 0x18#8 ∧ nn ≠ 0x1E#8 ∧ nn ≠ 0x29#8 ∧ nn ≠ 0x33#8 ∧ nn ≠ 0x55#8 ∧
      nn ≠ 0x65#8 := by
  simp [WellFormed, Instr.wf]

/-- The literal words differ from the word of a well-formed `SYS` in their low 12 bits. -/
theorem decodeWord_sys {nnn : Addr} (h : WellFormed (.sys nnn)) : decodeWord (0x0#4 ++ nnn) = .sys nnn := by
  obtain ⟨hop, hnnn⟩ := fields_nnn 0x0#4 nnn
  obtain ⟨hcls, hret⟩ := wellFormed_sys.1 h
  have hcls : 0x0#4 ++ nnn ≠ 0x00E0#16 := fun e => hcls (hnnn.symm.trans (congrArg nnnField e))
  have hret : 0x0#4 ++ nnn ≠ 0x00EE#16 := fun e => hret (hnnn.symm.trans (congrArg nnnField e))
  rw [decodeWord, if_neg hcls, if_neg hret, decodeHighNibble, hop, hnnn]
  rfl

theorem decodeFamily8_nop8 {x y n : Nibble} (h : WellFormed (.nop8 x y n)) : decodeFamily8 x y n = .nop8 x y n := by
  simp [decodeFamily8, wellFormed_nop8.1 h]

theorem decodeFamilyE_nopE {x : Nibble} {nn : Byte} (h : WellFormed (.nopE x nn)) :
    decodeFamilyE x nn = .nopE x nn := by
  simp [decodeFamilyE, wellFormed_nopE.1 h]

theorem decodeFamilyF_nopF {x : Nibble} {nn : Byte} (h : WellFormed (.nopF x nn)) :
    decodeFamilyF x nn = .nopF x nn := by
  simp [decodeFamilyF, wellFormed_nopF.1 h]

/-- Decoding the word of a well-formed instruction, family by family. -/
theorem decodeWord_encode {i : Instr} (h : WellFormed i) : decodeWord (encode i) = i := by
  cases i with
  | cls | ret => rfl
  | sys => exact decodeWord_sys h
  | jp | call | ldI | jpV0 => simp [encode, decodeWord_nnn, decodeHighNibble, fields_nnn]
  | seImm | sneImm | ldImm | addImm | rnd => simp [encode, decodeWord_xnn, decodeHighNibble, fields_xnn]
  | seReg | sneReg | drw => simp [encode, decodeWord_xyn, decodeHighNibble, fields_xyn]
  | ldReg x y | orReg x y | andReg x y | xorReg x y | addReg x y | subReg x y | shrReg x y | subnReg x y | shlReg x y =>
    exact decodeWord_family8 x y _
  | nop8 x y n => exact (decodeWord_family8 x y n).trans (decodeFamily8_nop8 h)
  | skp x | sknp x => exact decodeWord_familyE x _
  | nopE x nn => exact (decodeWord_familyE x nn).trans (decodeFamilyE_nopE h)
  | ldVxDt x | ldVxK x | ldDtVx x | ldStVx x | addI x | ldF x | ldB x | dump x | load x => exact decodeWord_familyF x _
  | nopF x nn => exact (decodeWord_familyF x nn).trans (decodeFamilyF_nopF h)

/-- The two bytes of an instruction are read as its word, whatever bytes follow. -/
theorem decodeBytes_encodeBytes (i : Instr) (rest : List Byte) :
    decodeBytes (encodeBytes i ++ rest) = .ok (decodeWord (encode i), rest) :=
  congrArg (fun w => Except.ok (decodeWord w, rest)) (join_bytes (encode i))

/-- Settles O1: the word is decoded family by family, and the two bytes make that word. -/
theorem decodeUndoesEncode : Obligations.DecodeUndoesEncode := by
  intro i rest h
  have hw := decodeWord_encode h
  exact ⟨hw, by rw [decodeBytes_encodeBytes, hw]⟩

/-- The instruction is a well-formed meaning of the word. -/
def Means (i : Instr) (w : InstrWord) : Prop := WellFormed i ∧ encode i = w

theorem Means.of_eq {i : Instr} {w w' : InstrWord} (h : Means i w) (e : w = w') : Means i w' := e ▸ h

theorem decodeFamily8_means (x y n : Nibble) : Means (decodeFamily8 x y n) (0x8#4 ++ x ++ y ++ n) := by
  unfold decodeFamily8
  split_ifs
  case neg => exact ⟨by simp [wellFormed_nop8, *], rfl⟩
  all_goals subst n; exact ⟨rfl, rfl⟩

theorem decodeFamilyE_means (x : Nibble) (nn : Byte) : Means (decodeFamilyE x nn) (0xE#4 ++ x ++ nn) := by
  unfold decodeFamilyE
  split_ifs
  case neg => exact ⟨by simp [wellFormed_nopE, *], rfl⟩
  all_goals subst nn; exact ⟨rfl, rfl⟩

theorem decodeFamilyF_means (x : Nibble) (nn : Byte) : Means (decodeFamilyF x nn) (0xF#4 ++ x ++ nn) := by
  unfold decodeFamilyF
  split_ifs
  case neg => exact ⟨by simp [wellFormed_nopF, *], rfl⟩
  all_goals subst nn; exact ⟨rfl, rfl⟩

/-! A word is its fields put together, in each of the three shapes. -/

theorem eq_of_opField_nnn {w : InstrWord} {op : Nibble} (h : (opField w).toNat = op.toNat) : op ++ nnnField w = w :=
  BitVec.eq_of_toNat_eq h ▸ join_nnn w

theorem eq_of_opField_xnn {w : InstrWord} {op : Nibble} (h : (opField w).toNat = op.toNat) :
    op ++ xField w ++ nnField w = w :=
  BitVec.eq_of_toNat_eq h ▸ join_xnn w

theorem eq_of_opField_xyn {w : InstrWord} {op : Nibble} (h : (opField w).toNat = op.toNat) :
    op ++ xField w ++ yField w ++ nField w = w :=
  BitVec.eq_of_toNat_eq h ▸ join_xyn w

/-- A word that is no literal word, by its high nibble. -/
theorem decodeHighNibble_means {w : InstrWord} (hcls : w ≠ 0x00E0#16) (hret : w ≠ 0x00EE#16) :
    Means (decodeHighNibble w) w := by
  unfold decodeHighNibble
  split
  case h_1 hop =>
    have hw := eq_of_opField_nnn (op := 0x0#4) hop
    exact ⟨wellFormed_sys.2 ⟨fun e => hcls (hw.symm.trans (congrArg (0x0#4 ++ ·) e)),
      fun e => hret (hw.symm.trans (congrArg (0x0#4 ++ ·) e))⟩, hw⟩
  case h_2 hop | h_3 hop | h_11 hop | h_12 hop => exact ⟨rfl, eq_of_opField_nnn hop⟩
  case h_4 hop | h_5 hop | h_7 hop | h_8 hop | h_13 hop => exact ⟨rfl, eq_of_opField_xnn hop⟩
  case h_6 hop | h_10 hop | h_14 hop => exact ⟨rfl, eq_of_opField_xyn hop⟩
  case h_9 hop => exact (decodeFamily8_means _ _ _).of_eq (eq_of_opField_xyn hop)
  case h_15 hop => exact (decodeFamilyE_means _ _).of_eq (eq_of_opField_xnn hop)
  case h_16 =>
    have hop : (opField w).toNat = (0xF#4).toNat := by
      have := (opField w).isLt
      grind
    exact (decodeFamilyF_means _ _).of_eq (eq_of_opField_xnn hop)

theorem decodeWord_means (w : InstrWord) : Means (decodeWord w) w := by
  unfold decodeWord
  split_ifs with hcls hret
  · exact ⟨rfl, hcls.symm⟩
  · exact ⟨rfl, hret.symm⟩
  · exact decodeHighNibble_means hcls hret

/-- Settles O2: by the literal words, then the high nibble, then the low nibble or byte. -/
theorem encodeUndoesDecode : Obligations.EncodeUndoesDecode := decodeWord_means

/-- Settles O4: fixed words, each decoded by evaluation. -/
theorem decodeOfSpecWords : Obligations.DecodeOfSpecWords := by
  unfold Obligations.DecodeOfSpecWords
  decide

end Sys2Proof
end

section
/-! PROOFS. The decoder selects the row of the opcode table with the smallest priority (30_encoding.md R64). -/

namespace Sys2Proof

/-! The table: a row of priority 3 is a catch-all, and a row below it is specific. -/

/-- Two rows that a word can both fit agree where both masks look; of the rows of one class no two do. -/
theorem opcodeTable_disjoint : ∀ r ∈ opcodeTable, ∀ r' ∈ opcodeTable,
    r.pattern &&& r'.mask = r'.pattern &&& r.mask → (r.priority < 3 ↔ r'.priority < 3) → r = r' := by decide

theorem opcodeTable_mask_op : ∀ r ∈ opcodeTable, opField r.mask = 0xF#4 := by decide

theorem mnemonic_of_catchAll : ∀ r ∈ opcodeTable, ¬ r.priority < 3 →
    r.mnemonic ∈ ["SYS_NNN", "NOP8", "NOPE", "NOPF"] := by decide

namespace OpcodeRow

variable {r r' : OpcodeRow} {w : InstrWord}

theorem Fits.agree (h : r.Fits w) (h' : r'.Fits w) : r.pattern &&& r'.mask = r'.pattern &&& r.mask := by
  rw [← h, ← h', BitVec.and_assoc, BitVec.and_assoc, BitVec.and_comm r.mask]

/-- A bit field that a row's mask covers is the same in the row's pattern and in every word that fits. -/
theorem Fits.extractLsb' (h : r.Fits w) {start len : Nat} (hm : r.mask.extractLsb' start len = BitVec.allOnes len) :
    r.pattern.extractLsb' start len = w.extractLsb' start len := by
  rw [← h, BitVec.extractLsb'_and, hm, BitVec.and_allOnes]

theorem Fits.opField (h : r.Fits w) (hr : r ∈ opcodeTable) : opField r.pattern = opField w :=
  h.extractLsb' (opcodeTable_mask_op r hr)

end OpcodeRow

/-! A family with a catch-all row dispatches on one bit field: its specific rows fix that field, each at a value the
catch-all instruction refuses. -/

/-- The specific rows with this high nibble fix the bit field at values outside `P`. -/
def SpecificRowsAvoid (op : Nibble) (start len : Nat) (P : BitVec len → Prop) : Prop :=
  ∀ r ∈ opcodeTable, r.priority < 3 → opField r.pattern = op →
    r.mask.extractLsb' start len = BitVec.allOnes len ∧ ¬ P (r.pattern.extractLsb' start len)

theorem specificRowsAvoid_sys : SpecificRowsAvoid 0x0#4 0 12 fun nnn => WellFormed (.sys nnn) := by
  unfold SpecificRowsAvoid; decide

theorem specificRowsAvoid_nop8 : SpecificRowsAvoid 0x8#4 0 4 fun n => ∃ x y, WellFormed (.nop8 x y n) := by
  unfold SpecificRowsAvoid; decide

theorem specificRowsAvoid_nopE : SpecificRowsAvoid 0xE#4 0 8 fun nn => ∃ x, WellFormed (.nopE x nn) := by
  unfold SpecificRowsAvoid; decide

theorem specificRowsAvoid_nopF : SpecificRowsAvoid 0xF#4 0 8 fun nn => ∃ x, WellFormed (.nopF x nn) := by
  unfold SpecificRowsAvoid; decide

theorem SpecificRowsAvoid.not_fits {op : Nibble} {start len : Nat} {P : BitVec len → Prop}
    (h : SpecificRowsAvoid op start len P) {r : OpcodeRow} (hr : r ∈ opcodeTable) (hp : r.priority < 3)
    {w : InstrWord} {v : BitVec len} (hop : opField w = op) (hv : w.extractLsb' start len = v) (hP : P v) :
    ¬ r.Fits w := by
  intro hf
  obtain ⟨hm, hnot⟩ := h r hr hp ((hf.opField hr).trans hop)
  rw [hf.extractLsb' hm, hv] at hnot
  exact hnot hP

/-- An instruction of a catch-all row: no specific row takes its word. -/
theorem specific_not_fits_of_catchAll {i : Instr} (hi : WellFormed i) {r r' : OpcodeRow} (hr : r ∈ opcodeTable)
    (hmn : r.mnemonic = i.mnemonic) (hp : ¬ r.priority < 3) (hr' : r' ∈ opcodeTable) (hp' : r'.priority < 3) :
    ¬ r'.Fits (encode i) := by
  have hcatch := hmn ▸ mnemonic_of_catchAll r hr hp
  cases i with
  | sys nnn =>
    obtain ⟨hop, hnnn⟩ := fields_nnn 0x0#4 nnn
    exact specificRowsAvoid_sys.not_fits hr' hp' hop hnnn hi
  | nop8 x y n =>
    obtain ⟨hop, -, -, hn⟩ := fields_xyn 0x8#4 x y n
    exact specificRowsAvoid_nop8.not_fits hr' hp' hop hn ⟨x, y, hi⟩
  | nopE x nn =>
    obtain ⟨hop, -, hnn⟩ := fields_xnn 0xE#4 x nn
    exact specificRowsAvoid_nopE.not_fits hr' hp' hop hnn ⟨x, hi⟩
  | nopF x nn =>
    obtain ⟨hop, -, hnn⟩ := fields_xnn 0xF#4 x nn
    exact specificRowsAvoid_nopF.not_fits hr' hp' hop hnn ⟨x, hi⟩
  | _ => simp [Instr.mnemonic] at hcatch

open Laws in
/-- The per-instruction laws of the encoder, for every instruction. -/
theorem encodesInRow (i : Instr) : EncodesInRow.Statement i := by
  cases i with
  | cls => exact EncodesInRow.cls
  | ret => exact EncodesInRow.ret
  | sys nnn => exact EncodesInRow.sys nnn
  | jp nnn => exact EncodesInRow.jp nnn
  | call nnn => exact EncodesInRow.call nnn
  | seImm x nn => exact EncodesInRow.seImm x nn
  | sneImm x nn => exact EncodesInRow.sneImm x nn
  | seReg x y n => exact EncodesInRow.seReg x y n
  | ldImm x nn => exact EncodesInRow.ldImm x nn
  | addImm x nn => exact EncodesInRow.addImm x nn
  | ldReg x y => exact EncodesInRow.ldReg x y
  | orReg x y => exact EncodesInRow.orReg x y
  | andReg x y => exact EncodesInRow.andReg x y
  | xorReg x y => exact EncodesInRow.xorReg x y
  | addReg x y => exact EncodesInRow.addReg x y
  | subReg x y => exact EncodesInRow.subReg x y
  | shrReg x y => exact EncodesInRow.shrReg x y
  | subnReg x y => exact EncodesInRow.subnReg x y
  | shlReg x y => exact EncodesInRow.shlReg x y
  | nop8 x y n => exact EncodesInRow.nop8 x y n
  | sneReg x y n => exact EncodesInRow.sneReg x y n
  | ldI nnn => exact EncodesInRow.ldI nnn
  | jpV0 nnn => exact EncodesInRow.jpV0 nnn
  | rnd x nn => exact EncodesInRow.rnd x nn
  | drw x y n => exact EncodesInRow.drw x y n
  | skp x => exact EncodesInRow.skp x
  | sknp x => exact EncodesInRow.sknp x
  | nopE x nn => exact EncodesInRow.nopE x nn
  | ldVxDt x => exact EncodesInRow.ldVxDt x
  | ldVxK x => exact EncodesInRow.ldVxK x
  | ldDtVx x => exact EncodesInRow.ldDtVx x
  | ldStVx x => exact EncodesInRow.ldStVx x
  | addI x => exact EncodesInRow.addI x
  | ldF x => exact EncodesInRow.ldF x
  | ldB x => exact EncodesInRow.ldB x
  | dump x => exact EncodesInRow.dump x
  | load x => exact EncodesInRow.load x
  | nopF x nn => exact EncodesInRow.nopF x nn

/-- Settles O3: the row of the decoded instruction fits. Another row that fits is of the other class, and it is not the
specific one of the two. -/
theorem decodeSelectsTableRow : Obligations.DecodeSelectsTableRow := by
  intro w
  obtain ⟨hwf, henc⟩ := decodeWord_means w
  obtain ⟨r, hr, hmn, hfit⟩ := encodesInRow (decodeWord w)
  rw [henc] at hfit
  refine ⟨r, hr, hfit, hmn, fun r' hr' hfit' hne => ?_⟩
  have hclass : ¬ (r'.priority < 3 ↔ r.priority < 3) := fun h =>
    hne (opcodeTable_disjoint r' hr' r hr (hfit'.agree hfit) h)
  have hspecific : ¬ (¬ r.priority < 3 ∧ r'.priority < 3) := fun ⟨hp, hp'⟩ =>
    specific_not_fits_of_catchAll hwf hr hmn hp hr' hp' (henc.symm ▸ hfit')
  omega

end Sys2Proof
end

section
/-! PROOFS. No instruction, Step or event leaves the machine without a next state (30_encoding.md R72, 60_exceptions.md
R210). -/

namespace Sys2Proof.Machine

theorem exec_next (i : Instr) (s : State) : ∃ t, exec i s = .next t := by
  rcases exec_ends i s with ⟨c, -, h⟩ | ⟨-, t, -, h⟩
  · exact ⟨_, h⟩
  · exact ⟨t, h⟩

theorem step_next (s : State) : ∃ t, step s = .next t := by
  rcases step_cases s with ⟨-, h⟩ | ⟨-, -, h⟩ | ⟨-, -, h⟩
  · exact ⟨_, h⟩
  · exact ⟨_, h⟩
  · exact h ▸ exec_next _ s

theorem stepWith_next (r : Option Byte) (s : State) : ∃ t, stepWith r s = .next t := by
  unfold stepWith
  cases s.mode with
  | running => exact step_next _
  | awaitingKey | faulted => exact ⟨s, rfl⟩

theorem applyEvent_next (e : Event) (s : State) : ∃ t, applyEvent e s = .next t := by
  cases e with
  | step r => exact stepWith_next r s
  | reset | tick | keyPress | keyRelease => exact ⟨_, rfl⟩

/-- Settles O8: an instruction raises or completes, and either is a next state. -/
theorem nothingStopsTheMachine : Obligations.NothingStopsTheMachine :=
  ⟨exec_next, step_next, applyEvent_next⟩

end Sys2Proof.Machine
end

section
/-! PROOFS. The Step on the bytes at `PC` (40_flow.md R80) and the jump (R83). -/

namespace Sys2Proof.Machine

/-- The two bytes from an address on decode to the instruction of its word (20_memory.md R44). -/
theorem State.decodeBytes_eq_wordAt (s : State) (a : Nat) (rest : List Byte) :
    decodeBytes (s.byte a :: s.byte (a + 1) :: rest) = .ok (decodeWord (s.wordAt a), rest) := rfl

theorem exec_jp (nnn : Addr) (s : State) : exec (.jp nnn) s = .next (s.jump nnn) := rfl

/-- Settles O5: the bytes at `PC` make the word that the Step fetches, so both decode to the one instruction. -/
theorem stepRunsDecodedInstruction : Obligations.StepRunsDecodedInstruction := by
  intro s i hr hp hdec
  rw [State.decodeBytes_eq_wordAt] at hdec
  have hword : decodeWord (s.wordAt s.pc.toNat) = i := congrArg Prod.fst (Except.ok.inj hdec)
  rw [step_of_running hr hp, hword]

/-- Settles O11: `1NNN` is the word of the well-formed `JP`, and the jump is the record update of `PC` alone. -/
theorem jumpGoesToTarget : Obligations.JumpGoesToTarget := fun s nnn =>
  ⟨decodeWord_encode (i := .jp nnn) rfl, exec_jp nnn s⟩

end Sys2Proof.Machine
end

section
/-! PROOFS. The four skips (41_skip.md R100 to R104). -/

namespace Sys2Proof.Machine

theorem exec_seImm (x : Nibble) (nn : Byte) (s : State) :
    exec (.seImm x nn) s = .next (s.skipIf (s.getV x == nn)) := rfl

theorem exec_sneImm (x : Nibble) (nn : Byte) (s : State) :
    exec (.sneImm x nn) s = .next (s.skipIf (s.getV x != nn)) := rfl

theorem exec_seReg (x y n : Nibble) (s : State) :
    exec (.seReg x y n) s = .next (s.skipIf (s.getV x == s.getV y)) := rfl

theorem exec_sneReg (x y n : Nibble) (s : State) :
    exec (.sneReg x y n) s = .next (s.skipIf (s.getV x != s.getV y)) := rfl

/-- A skip on equal bytes, with the comparison as claims write it. -/
theorem State.skipIf_beq (s : State) (a b : Byte) :
    s.skipIf (a == b) = { s with pc := s.pcPlus (if a.toNat = b.toNat then 4 else 2) } := by
  simp only [State.skipIf_eq, beq_iff_eq, BitVec.toNat_inj]

/-- A skip on different bytes: the two outcomes are exchanged. -/
theorem State.skipIf_bne (s : State) (a b : Byte) :
    s.skipIf (a != b) = { s with pc := s.pcPlus (if a.toNat = b.toNat then 2 else 4) } := by
  simp only [State.skipIf_eq, bne_iff_ne, ne_eq, ite_not, BitVec.toNat_inj]

/-- Settles O17: each of the four is one shared skip, on equal or on different bytes. -/
theorem skipsCompareAndAdvance : Obligations.SkipsCompareAndAdvance := by
  intro s x y n nn
  refine ⟨?_, ?_, ?_, ?_⟩
  · rw [exec_seImm, State.skipIf_beq]
  · rw [exec_sneImm, State.skipIf_bne]
  · rw [exec_seReg, State.skipIf_beq]
  · rw [exec_sneReg, State.skipIf_bne]

end Sys2Proof.Machine
end

section
/-! PROOFS. Immediate loads, add immediate, set index and the random byte (42_immediate.md R110 to R113). -/

namespace Sys2Proof.Machine

theorem exec_ldImm (x : Nibble) (nn : Byte) (s : State) : exec (.ldImm x nn) s = .next (s.setV x nn).advance := rfl

theorem exec_addImm (x : Nibble) (nn : Byte) (s : State) :
    exec (.addImm x nn) s = .next (s.setV x (s.getV x + nn)).advance := rfl

theorem exec_ldI (nnn : Addr) (s : State) : exec (.ldI nnn) s = .next { s with i := nnn }.advance := rfl

theorem exec_rnd_of_some {s : State} {r : Byte} (h : s.rndIn = some r) (x : Nibble) (nn : Byte) :
    exec (.rnd x nn) s = .next ((s.setV x (r &&& nn)).drawn).advance := by
  simp only [exec, execRnd, h]

/-- One register written and the default advance: nothing but the registers and `PC` changes. -/
theorem State.setV_advance_eq (s : State) (x : Nibble) (b : Byte) :
    (s.setV x b).advance = { s with v := (s.setV x b).advance.v, pc := s.pcPlus 2 } :=
  (s.setV x b).advance_eq

theorem State.getV_setV_advance (s : State) (x r : Nibble) (b : Byte) :
    (s.setV x b).advance.getV r = if r = x then b else s.getV r := by
  rw [State.getV_advance, State.getV_setV, if_congr eq_comm rfl rfl]

/-- Settles O18: one register is written, VF like any other. -/
theorem loadImmediateSetsRegister : Obligations.LoadImmediateSetsRegister := fun s x nn =>
  ⟨decodeWord_encode (i := .ldImm x nn) rfl, _, exec_ldImm x nn s, s.setV_advance_eq x nn,
    fun r => s.getV_setV_advance x r nn⟩

/-- Settles O19: the sum of two bytes is the sum modulo 256, and one register is written. -/
theorem addImmediateWrapsWithoutFlag : Obligations.AddImmediateWrapsWithoutFlag := by
  intro s x nn
  refine ⟨decodeWord_encode (i := .addImm x nn) rfl, _, exec_addImm x nn s, s.setV_advance_eq x _, fun r => ?_⟩
  rw [State.getV_setV_advance, apply_ite BitVec.toNat, BitVec.toNat_add]

/-- Settles O20: the 12-bit value is taken as it stands, and no range is checked. -/
theorem setIndexTakesAnyAddress : Obligations.SetIndexTakesAnyAddress := fun s nnn =>
  ⟨decodeWord_encode (i := .ldI nnn) rfl, (exec_ldI nnn s).trans (congrArg _ (State.advance_eq _))⟩

/-- Settles O21: with a byte at the port the meaning draws it once, and masking clears the bits outside `NN`. -/
theorem randomByteIsMasked : Obligations.RandomByteIsMasked := by
  intro s x nn r hr
  refine ⟨_, exec_rnd_of_some hr x nn, State.advance_eq _, fun q => s.getV_setV_advance x q (r &&& nn), ?_⟩
  rw [State.getV_advance, State.getV_drawn, State.getV_setV_self, BitVec.and_assoc, BitVec.and_not_self]
  exact BitVec.and_zero

end Sys2Proof.Machine
end

section
/-! PROOFS. Presenting a value at the random port commutes with every instruction but `RND` (42_immediate.md R113,
50_host_interface.md R186). -/

namespace Sys2Proof.Machine

/-- A value presented at the port after an instruction has answered. -/
def Result.present (r : Result) (p : Option Byte) : Result := r.andThen fun t => .next (t.present p)

/-! The operations of several cases, each of which looks at no part of the port. -/

theorem State.skipIf_present (s : State) (p : Option Byte) (c : Bool) :
    (s.present p).skipIf c = (s.skipIf c).present p := by
  cases c <;> rfl

theorem State.dumpTo_present (s : State) (p : Option Byte) (base n : Nat) :
    (s.present p).dumpTo base n = (s.dumpTo base n).present p := by
  induction n with
  | zero => rfl
  | succ n ih => simp only [State.dumpTo, ih]; rfl

theorem State.loadFrom_present (s : State) (p : Option Byte) (base n : Nat) :
    (s.present p).loadFrom base n = (s.loadFrom base n).present p := by
  induction n with
  | zero => rfl
  | succ n ih => simp only [State.loadFrom, ih]; rfl

/-- A choice between two answers, each of which is the presentation after an answer. -/
theorem Result.ite_present {p : Option Byte} {a b a' b' : Result} (c : Prop) [Decidable c] (ha : a' = a.present p)
    (hb : b' = b.present p) : (if c then a' else b') = Result.present (if c then a else b) p := by
  rw [ha, hb]
  exact (apply_ite (fun r : Result => r.present p) c a b).symm

theorem State.guardRange_present (s : State) {p : Option Byte} (k : Nat) {go go' : Result} (h : go' = go.present p) :
    (s.present p).guardRange k go' = (s.guardRange k go).present p :=
  Result.ite_present (s.i.toNat + k > 0xFFF) rfl h

theorem State.withKey_present (s : State) {p : Option Byte} (x : Nibble) {go go' : Bool → State}
    (h : ∀ down, go' down = (go down).present p) : (s.present p).withKey x go' = (s.withKey x go).present p :=
  Result.ite_present ((s.getV x).toNat > 15) rfl (congrArg _ (h _))

/-- Most meanings are built of updates that leave the port alone, so that both sides are one record; the others go
through the operations above. -/
theorem exec_present {i : Instr} (hi : ∀ x nn, i ≠ .rnd x nn) (s : State) (p : Option Byte) :
    exec i (s.present p) = Result.present (exec i s) p := by
  cases i with
  | rnd x nn => exact absurd rfl (hi x nn)
  | ret => exact Result.ite_present (s.sp = 0) rfl rfl
  | call => exact Result.ite_present (s.sp = 15) rfl rfl
  | seImm | sneImm | seReg | sneReg => exact congrArg _ (s.skipIf_present p _)
  | skp x | sknp x => exact s.withKey_present x fun _ => s.skipIf_present p _
  | drw x y n => exact Result.ite_present (n = 0) rfl (s.guardRange_present (n.toNat - 1) rfl)
  | ldB => exact s.guardRange_present 2 rfl
  | dump x =>
    refine s.guardRange_present x.toNat ?_
    rw [State.dumpTo_present]
    rfl
  | load x =>
    refine s.guardRange_present x.toNat ?_
    rw [State.loadFrom_present]
    rfl
  | _ => rfl

/-- Settles O60: the value at the port is neither read nor replaced, so it may as well be presented afterwards. -/
theorem onlyRndReadsTheRandomPort : Obligations.OnlyRndReadsTheRandomPort := fun _ s p hi => exec_present hi s p

end Sys2Proof.Machine
end

section
/-! PROOFS. The register-to-register group, family 8 (43_alu.md R120 to R130), and the no-operations of families 8, E
and F. -/

namespace Sys2Proof.Machine

/-! The meanings. All but `8XY0` write a result to `V[X]` and then a flag to VF (R120). -/

theorem exec_ldReg (x y : Nibble) (s : State) : exec (.ldReg x y) s = .next (s.setV x (s.getV y)).advance := rfl

theorem exec_orReg (x y : Nibble) (s : State) :
    exec (.orReg x y) s = .next (s.setResultFlag x (s.getV x ||| s.getV y) 0).advance := rfl

theorem exec_andReg (x y : Nibble) (s : State) :
    exec (.andReg x y) s = .next (s.setResultFlag x (s.getV x &&& s.getV y) 0).advance := rfl

theorem exec_xorReg (x y : Nibble) (s : State) :
    exec (.xorReg x y) s = .next (s.setResultFlag x (s.getV x ^^^ s.getV y) 0).advance := rfl

theorem exec_addReg (x y : Nibble) (s : State) : exec (.addReg x y) s =
    .next (s.setResultFlag x (s.getV x + s.getV y) (carryOut (s.getV x) (s.getV y))).advance := rfl

theorem exec_subReg (x y : Nibble) (s : State) : exec (.subReg x y) s =
    .next (s.setResultFlag x (s.getV x - s.getV y) (notBorrow (s.getV x) (s.getV y))).advance := rfl

theorem exec_subnReg (x y : Nibble) (s : State) : exec (.subnReg x y) s =
    .next (s.setResultFlag x (s.getV y - s.getV x) (notBorrow (s.getV y) (s.getV x))).advance := rfl

theorem exec_shrReg (x y : Nibble) (s : State) : exec (.shrReg x y) s =
    .next (s.setResultFlag x (s.getV y >>> 1) (shiftedOutRight (s.getV y))).advance := rfl

theorem exec_shlReg (x y : Nibble) (s : State) : exec (.shlReg x y) s =
    .next (s.setResultFlag x (s.getV y <<< 1) (shiftedOutLeft (s.getV y))).advance := rfl

/-! The frame and the registers of a result and a flag, for any instruction that ends so. -/

theorem State.getV_setResultFlag_advance (s : State) (x r : Nibble) (b f : Byte) :
    (s.setResultFlag x b f).advance.getV r = if r = 0xF then f else if r = x then b else s.getV r :=
  s.getV_setResultFlag x r b f

/-- The registers as numbers. -/
theorem exists_resultFlag_toNat {i : Instr} {s : State} {x : Nibble} {b f : Byte}
    (h : exec i s = .next (s.setResultFlag x b f).advance) :
    ∃ t, exec i s = .next t ∧ t = { s with v := t.v, pc := s.pcPlus 2 } ∧ ∀ r : Nibble,
      (t.getV r).toNat = if r = 0xF then f.toNat else if r = x then b.toNat else (s.getV r).toNat := by
  refine ⟨_, h, State.advance_eq _, fun r => ?_⟩
  rw [State.getV_setResultFlag_advance, apply_ite BitVec.toNat, apply_ite BitVec.toNat]

/-- The registers bit by bit, with the flag cleared. -/
theorem exists_resultClear_getLsbD {i : Instr} {s : State} {x : Nibble} {b : Byte}
    (h : exec i s = .next (s.setResultFlag x b 0).advance) :
    ∃ t, exec i s = .next t ∧ t = { s with v := t.v, pc := s.pcPlus 2 } ∧ ∀ (r : Nibble) (k : Nat),
      (t.getV r).getLsbD k = if r = 0xF then false else if r = x then b.getLsbD k else (s.getV r).getLsbD k := by
  refine ⟨_, h, State.advance_eq _, fun r k => ?_⟩
  rw [State.getV_setResultFlag_advance, apply_ite (BitVec.getLsbD · k), apply_ite (BitVec.getLsbD · k)]
  exact if_congr Iff.rfl BitVec.getLsbD_zero rfl

/-! Flags and results as numbers. -/

theorem flagByte_toNat (c : Bool) : (flagByte c).toNat = c.toNat := by
  cases c <;> rfl

theorem flagByte_decide_toNat (p : Prop) [Decidable p] : (flagByte (decide p)).toNat = if p then 1 else 0 := by
  rw [flagByte_toNat, Bool.toNat, Bool.cond_decide]

theorem carryOut_toNat (a b : Byte) : (carryOut a b).toNat = if a.toNat + b.toNat > 255 then 1 else 0 :=
  flagByte_decide_toNat _

theorem notBorrow_toNat (a b : Byte) : (notBorrow a b).toNat = if a.toNat ≥ b.toNat then 1 else 0 :=
  flagByte_decide_toNat _

theorem flagByte_getLsbD_toNat (b : Byte) (k : Nat) : (flagByte (b.getLsbD k)).toNat = b.toNat / 2 ^ k % 2 :=
  (flagByte_toNat _).trans (Nat.toNat_testBit b.toNat k)

theorem shiftedOutRight_toNat (b : Byte) : (shiftedOutRight b).toNat = b.toNat % 2 := by
  rw [shiftedOutRight, flagByte_getLsbD_toNat, Nat.pow_zero, Nat.div_one]

/-- No bit of a byte lies above bit 7, so the quotient is the bit. -/
theorem shiftedOutLeft_toNat (b : Byte) : (shiftedOutLeft b).toNat = b.toNat / 128 := by
  rw [shiftedOutLeft, flagByte_getLsbD_toNat]
  omega

theorem toNat_byte_sub (a b : Byte) : (a - b).toNat = (a.toNat + 256 - b.toNat) % 256 := by
  rw [BitVec.toNat_sub]
  omega

theorem toNat_byte_shiftRight_one (b : Byte) : (b >>> 1).toNat = b.toNat / 2 := by
  rw [BitVec.toNat_ushiftRight, Nat.shiftRight_eq_div_pow, Nat.pow_one]

theorem toNat_byte_shiftLeft_one (b : Byte) : (b <<< 1).toNat = 2 * b.toNat % 256 := by
  rw [BitVec.toNat_shiftLeft, Nat.shiftLeft_eq, Nat.pow_one, Nat.mul_comm]

/-! The obligations of family 8. -/

/-- Settles O22: one register is written, VF like any other. -/
theorem assignCopiesRegister : Obligations.AssignCopiesRegister := fun s x y =>
  ⟨decodeWord_encode (i := .ldReg x y) rfl, _, exec_ldReg x y s, s.setV_advance_eq x _,
    fun r => s.getV_setV_advance x r (s.getV y)⟩

/-- Settles O23: each bit of the result is the connective of the operands' bits, and the flag written last is zero. -/
theorem logicClearsFlag : Obligations.LogicClearsFlag := by
  intro s x y
  refine ⟨decodeWord_encode (i := .orReg x y) rfl, decodeWord_encode (i := .andReg x y) rfl,
    decodeWord_encode (i := .xorReg x y) rfl, ?_, ?_, ?_⟩
  · simpa only [BitVec.getLsbD_or] using exists_resultClear_getLsbD (exec_orReg x y s)
  · simpa only [BitVec.getLsbD_and] using exists_resultClear_getLsbD (exec_andReg x y s)
  · simpa only [BitVec.getLsbD_xor] using exists_resultClear_getLsbD (exec_xorReg x y s)

/-- Settles O24: the sum of two bytes is the sum modulo 256, and the carry is taken from the operands alone. -/
theorem addSetsCarry : Obligations.AddSetsCarry := by
  intro s x y
  refine ⟨decodeWord_encode (i := .addReg x y) rfl, ?_⟩
  simpa only [carryOut_toNat, BitVec.toNat_add] using exists_resultFlag_toNat (exec_addReg x y s)

/-- Settles O25: the two differ in which operand is the minuend. -/
theorem subtractionsSetNotBorrow : Obligations.SubtractionsSetNotBorrow := by
  intro s x y
  refine ⟨decodeWord_encode (i := .subReg x y) rfl, decodeWord_encode (i := .subnReg x y) rfl, ?_, ?_⟩
  · simpa only [notBorrow_toNat, toNat_byte_sub] using exists_resultFlag_toNat (exec_subReg x y s)
  · simpa only [notBorrow_toNat, toNat_byte_sub] using exists_resultFlag_toNat (exec_subnReg x y s)

/-- Settles O26: a shift by one halves or doubles, and the bit shifted out is the remainder by 2 or the quotient by
128. -/
theorem shiftsTakeSecondOperand : Obligations.ShiftsTakeSecondOperand := by
  intro s x y
  refine ⟨decodeWord_encode (i := .shrReg x y) rfl, decodeWord_encode (i := .shlReg x y) rfl, ?_, ?_⟩
  · simpa only [shiftedOutRight_toNat, toNat_byte_shiftRight_one] using exists_resultFlag_toNat (exec_shrReg x y s)
  · simpa only [shiftedOutLeft_toNat, toNat_byte_shiftLeft_one] using exists_resultFlag_toNat (exec_shlReg x y s)

/-! The no-operations. -/

theorem State.noOperation_eq (s : State) : s.noOperation = .next { s with pc := s.pcPlus 2 } :=
  congrArg _ s.advance_eq

theorem exec_nop8 (x y n : Nibble) (s : State) : exec (.nop8 x y n) s = s.noOperation := rfl

theorem exec_nopE (x : Nibble) (nn : Byte) (s : State) : exec (.nopE x nn) s = s.noOperation := rfl

theorem exec_nopF (x : Nibble) (nn : Byte) (s : State) : exec (.nopF x nn) s = s.noOperation := rfl

/-- Settles O10: the words named are those of the well-formed catch-all instructions, whose meaning is the default
advance. -/
theorem unrecognisedWordsOnlyAdvance : Obligations.UnrecognisedWordsOnlyAdvance := by
  refine ⟨fun s x y n => ?_, fun s x nn => ?_, fun s x nn => ?_, fun x y n hn => ?_, fun x nn hskp hsknp => ?_,
    fun x nn hnn => ?_⟩
  · rw [exec_nop8, State.noOperation_eq]
  · rw [exec_nopE, State.noOperation_eq]
  · rw [exec_nopF, State.noOperation_eq]
  · have hwf : WellFormed (.nop8 x y n) := List.contains_iff_mem.2 hn
    exact decodeWord_encode hwf
  · exact decodeWord_encode (i := .nopE x nn) (wellFormed_nopE.2 ⟨hskp, hsknp⟩)
  · have hwf : WellFormed (.nopF x nn) := by simpa [wellFormed_nopF] using hnn
    exact decodeWord_encode hwf

end Sys2Proof.Machine
end

section
/-! PROOFS. Clearing the display, and the sprite blit as cells covered and lit (44_display.md R140 to R144). -/

namespace Sys2Proof.Machine

theorem exec_cls (s : State) : exec .cls s = .next { s with disp := dispClear }.advance := rfl

/-- Settles O27: every cell of the cleared display reads 0. -/
theorem clearLeavesNoCellLit : Obligations.ClearLeavesNoCellLit := fun s =>
  ⟨decodeWord_encode (i := .cls) rfl, _, exec_cls s, State.advance_eq _,
    fun px _ py _ => ne_true_of_eq_false (dispGet_dispClear px py)⟩

/-! The display through its cells. -/

theorem dispGet_mod (d : Display) (x y : Nat) : dispGet d (x % 64) (y % 32) = dispGet d x y := by
  simp only [dispGet, Nat.mod_mod]

/-- A display is determined by which of its 2048 cells are lit. -/
theorem State.disp_eq_of_lit_iff {s t : State} (h : ∀ px < 64, ∀ py < 32, (s.Lit px py ↔ t.Lit px py)) :
    s.disp = t.disp := by
  refine Vector.ext fun py hy => Vector.ext fun px hx => ?_
  have hcell := Bool.eq_iff_iff.2 (h px hx py hy)
  simpa only [dispGet, Nat.mod_eq_of_lt hx, Nat.mod_eq_of_lt hy] using hcell

/-! The rows of a sprite and the cells under its 1 bits. -/

@[simp] theorem State.spriteRows_length (s : State) (n : Nat) : (s.spriteRows n).length = n := by
  simp [State.spriteRows]

theorem State.spriteRows_getD (s : State) {n r : Nat} (h : r < n) :
    (s.spriteRows n).getD r 0 = s.byte (s.i.toNat + r) := by
  simp [State.spriteRows, State.dataAddress, h]

theorem wrapOffset_eq_iff_of_lt {w n p : Nat} (hn : n < w) (hp : p < w) (origin : Nat) :
    wrapOffset w origin p = n ↔ (origin + n) % w = p := by
  rw [← wrapOffset_eq_iff hn, Nat.mod_eq_of_lt hp]

/-- A cell of the screen has one offset from the sprite's corner, so the bit of the blit's law is the one that the
claims speak of. -/
theorem State.spriteBit_eq_true_iff (s : State) (x y n : Nibble) {px py : Nat} (hx : px < 64) (hy : py < 32) :
    spriteBit (s.spriteX x) (s.spriteY y) (s.spriteRows n.toNat) px py = true ↔ s.SpriteCovers x y n px py := by
  simp only [spriteBit, rowBit, State.spriteRows_length, Bool.and_eq_true, decide_eq_true_eq]
  constructor
  · rintro ⟨hr, hc, hbit⟩
    rw [s.spriteRows_getD hr] at hbit
    exact ⟨_, hr, _, hc, hbit, (wrapOffset_eq_iff_of_lt (wrapOffset_lt (by decide) _ _) hx _).1 rfl,
      (wrapOffset_eq_iff_of_lt (wrapOffset_lt (by decide) _ _) hy _).1 rfl⟩
  · rintro ⟨r, hr, c, hc, hbit, hpx, hpy⟩
    have hcol : wrapOffset 64 (s.spriteX x) px = c := (wrapOffset_eq_iff_of_lt (by omega) hx _).2 hpx
    have hrow : wrapOffset 32 (s.spriteY y) py = r := (wrapOffset_eq_iff_of_lt (by omega) hy _).2 hpy
    rw [hcol, hrow, s.spriteRows_getD hr]
    exact ⟨hr, hc, hbit⟩

theorem State.spriteRows_length_le (s : State) (n : Nibble) : (s.spriteRows n.toNat).length ≤ 32 := by
  rw [State.spriteRows_length]
  omega

/-- The cells of the canvas (R142). -/
theorem State.spriteCanvas_get (s : State) (x y n : Nibble) (px py : Nat) :
    dispGet (s.spriteCanvas x y n).1 px py =
      (dispGet s.disp px py ^^ spriteBit (s.spriteX x) (s.spriteY y) (s.spriteRows n.toNat) px py) :=
  blitRows_get _ _ _ _ (s.spriteRows_length_le n) px py

/-- The collision of the canvas (R143): a covered cell was lit. -/
theorem State.spriteCanvas_hit (s : State) (x y n : Nibble) :
    (s.spriteCanvas x y n).2 = true ↔ ∃ px < 64, ∃ py < 32, s.Lit px py ∧ s.SpriteCovers x y n px py := by
  have hhit := blitRows_hit (s.disp, false) (s.spriteX x) (s.spriteY y) _ (s.spriteRows_length_le n)
  rw [State.spriteRows_length] at hhit
  refine hhit.trans ⟨?_, ?_⟩
  · rintro (h | ⟨r, hr, c, hc, hbit, hlit⟩)
    · exact absurd h Bool.false_ne_true
    · rw [s.spriteRows_getD hr] at hbit
      exact ⟨_, Nat.mod_lt _ (by decide), _, Nat.mod_lt _ (by decide), (dispGet_mod s.disp _ _).trans hlit,
        r, hr, c, hc, hbit, rfl, rfl⟩
  · rintro ⟨_, -, _, -, hlit, r, hr, c, hc, hbit, rfl, rfl⟩
    exact .inr ⟨r, hr, c, hc, (s.spriteRows_getD hr).symm ▸ hbit, (dispGet_mod s.disp _ _).symm.trans hlit⟩

/-! The state after `DRW`. -/

/-- What `DRW` leaves when its rows lie in memory (R141); `exec_drw_inside` says that it does. -/
def State.withSprite (s : State) (x y n : Nibble) : State :=
  ({ s with disp := (s.spriteCanvas x y n).1 }.setV vfIndex
    (collisionFlag Config.collisionPolicy (s.spriteCanvas x y n).2)).advance

/-- Rows that end at or below the last address pass the range check, and no row is not checked. -/
theorem exec_drw_inside {s : State} {n : Nibble} (h : s.i.toNat + n.toNat ≤ 4096) (x y : Nibble) :
    exec (.drw x y n) s = .next (s.withSprite x y n) := by
  by_cases hn : n = 0
  · exact if_pos hn
  · have hpos : n.toNat ≠ 0 := fun h0 => hn (BitVec.eq_of_toNat_eq h0)
    exact (if_neg hn).trans (State.guardRange_inside _ (by omega))

theorem State.withSprite_eq (s : State) (x y n : Nibble) : s.withSprite x y n =
    { s with disp := (s.withSprite x y n).disp, v := (s.withSprite x y n).v, pc := s.pcPlus 2 } :=
  State.advance_eq _

theorem State.getV_withSprite_of_ne (s : State) (x y n : Nibble) {r : Nibble} (hr : r ≠ 0xF) :
    (s.withSprite x y n).getV r = s.getV r :=
  (State.getV_setV _ vfIndex r _).trans (if_neg hr.symm)

theorem flagByte_eq_one_iff (c : Bool) : flagByte c = 1 ↔ c = true := by
  cases c <;> decide

/-- The flag under the canonical policy (R143, D9). -/
theorem State.getV_withSprite_flag_eq_one_iff (s : State) (x y n : Nibble) : (s.withSprite x y n).getV 0xF = 1 ↔
    ∃ px < 64, ∃ py < 32, s.Lit px py ∧ s.SpriteCovers x y n px py := by
  have hflag : (s.withSprite x y n).getV 0xF = flagByte (s.spriteCanvas x y n).2 := State.getV_setV_self _ vfIndex _
  rw [hflag, flagByte_eq_one_iff, State.spriteCanvas_hit]

theorem State.withSprite_lit_iff (s : State) (x y n : Nibble) {px py : Nat} (hx : px < 64) (hy : py < 32) :
    (s.withSprite x y n).Lit px py ↔ (s.Lit px py ∧ ¬ s.SpriteCovers x y n px py) ∨
      (¬ s.Lit px py ∧ s.SpriteCovers x y n px py) := by
  have hcell : (s.withSprite x y n).Lit px py ↔ (dispGet s.disp px py ^^
      spriteBit (s.spriteX x) (s.spriteY y) (s.spriteRows n.toNat) px py) = true :=
    Bool.eq_iff_iff.1 (s.spriteCanvas_get x y n px py)
  rw [hcell, ← s.spriteBit_eq_true_iff x y n hx hy, State.Lit, Bool.xor_iff_ne, ne_eq, Bool.eq_iff_iff]
  tauto

/-- Settles O28: the blit's law read through the cells covered and lit. -/
theorem spriteIsXorBlit : Obligations.SpriteIsXorBlit := fun s x y n h =>
  ⟨_, exec_drw_inside h x y, s.withSprite_eq x y n, fun _ hr => s.getV_withSprite_of_ne x y n hr,
    fun _ hx _ hy => s.withSprite_lit_iff x y n hx hy⟩

/-- A draw that keeps both coordinates leaves the sprite where it is: memory and `I` do not change. -/
theorem State.withSprite_covers_iff {s : State} {x y n : Nibble} (hx : (s.withSprite x y n).getV x = s.getV x)
    (hy : (s.withSprite x y n).getV y = s.getV y) (px py : Nat) :
    (s.withSprite x y n).SpriteCovers x y n px py ↔ s.SpriteCovers x y n px py := by
  rw [State.SpriteCovers, hx, hy]
  rfl

/-- Settles O30: both draws flip the same cells, so the second undoes the first, and a covered cell is lit between them
exactly when it was not before. -/
theorem drawingTwiceRestoresDisplay : Obligations.DrawingTwiceRestoresDisplay := by
  intro s x y n h
  refine ⟨_, exec_drw_inside h x y, fun hx hy => ?_⟩
  have hcov := State.withSprite_covers_iff hx hy
  refine ⟨_, exec_drw_inside (s := s.withSprite x y n) h x y, ?_, ?_⟩
  · refine State.disp_eq_of_lit_iff fun px hpx py hpy => ?_
    rw [State.withSprite_lit_iff _ x y n hpx hpy, hcov, State.withSprite_lit_iff _ x y n hpx hpy]
    tauto
  · rw [State.getV_withSprite_flag_eq_one_iff]
    refine exists_congr fun px => and_congr_right fun hpx => exists_congr fun py => and_congr_right fun hpy => ?_
    rw [hcov, State.withSprite_lit_iff _ x y n hpx hpy]
    tauto

end Sys2Proof.Machine
end

section
/-! PROOFS. The gate of the Step by mode (40_flow.md R80, 50_host_interface.md R182), the key skips, and the wait for a
key (45_keys.md R150 to R152). -/

namespace Sys2Proof.Machine

/-! The gate. -/

theorem step_of_not_running {s : State} (h : ¬ s.Running) : step s = .next s := by
  obtain ⟨-, hs⟩ | ⟨hr, -⟩ | ⟨hr, -⟩ := step_cases s
  · exact hs
  · exact absurd hr h
  · exact absurd hr h

theorem stepWith_of_faulted {s : State} {c : Fault} (h : s.fault = some c) (r : Option Byte) : stepWith r s = .next s := by
  simp [stepWith, State.mode, h]

theorem stepWith_of_not_running {s : State} (h : ¬ s.Running) (r : Option Byte) : stepWith r s = .next s := by
  cases hf : s.fault with
  | some c => exact stepWith_of_faulted hf r
  | none =>
    cases hw : s.wait with
    | some k => exact stepWith_of_waiting hf hw r
    | none => exact absurd ⟨hf, hw⟩ h

/-- Settles O7: in either gated mode the block is not Running, and the request, with its random input or without, is
refused. -/
theorem stepGatedByMode : Obligations.StepGatedByMode := fun _ r h =>
  have hr := not_and_or.2 h
  ⟨step_of_not_running hr, stepWith_of_not_running hr r⟩

/-! The key skips. -/

theorem exec_skp (x : Nibble) (s : State) : exec (.skp x) s = s.withKey x fun down => s.skipIf down := rfl

theorem exec_sknp (x : Nibble) (s : State) : exec (.sknp x) s = s.withKey x fun down => s.skipIf (!down) := rfl

/-- With the pad index `k` in `V[X]` the index check passes and `Key[k]` is the key asked for (R150, R151). -/
theorem State.withKey_of_toNat_eq {s : State} {x k : Nibble} (h : (s.getV x).toNat = k.toNat) (go : Bool → State) :
    s.withKey x go = .next (go (s.getKey k)) := by
  have hle : (s.getV x).toNat ≤ 15 := by omega
  have hk : padIndex (s.getV x) = k := BitVec.eq_of_toNat_eq ((padIndex_toNat hle).trans h)
  rw [State.withKey_inside go hle, hk]

/-- A skip on the negated condition: the two outcomes are exchanged. -/
theorem State.skipIf_not (s : State) (c : Bool) :
    s.skipIf (!c) = { s with pc := s.pcPlus (if c = true then 2 else 4) } := by
  simp only [State.skipIf_eq, Bool.not_eq_true', ← Bool.not_eq_true, ite_not]

/-- Settles O31: both are one skip on the state of the key that `V[X]` names, `SKNP` with the outcomes exchanged. -/
theorem keySkipsTestKeyState : Obligations.KeySkipsTestKeyState := by
  intro s x k h
  refine ⟨?_, ?_⟩
  · rw [exec_skp, State.withKey_of_toNat_eq h, State.skipIf_eq]
  · rw [exec_sknp, State.withKey_of_toNat_eq h, State.skipIf_not]

/-! The wait for a key. -/

theorem exec_ldVxK (x : Nibble) (s : State) : exec (.ldVxK x) s = .next { s with wait := some x }.advance := rfl

/-- Settles O33: the latch is set and the instruction ends with the default advance, no register written. -/
theorem waitForKeySetsLatch : Obligations.WaitForKeySetsLatch := fun s x =>
  (exec_ldVxK x s).trans (congrArg _ (State.advance_eq _))

end Sys2Proof.Machine
end

section
/-! PROOFS. The timer instructions (46_timers.md R160 to R162), and the tone while the Ticks count the sound timer down
(10_state.md R20, 50_host_interface.md R183). -/

namespace Sys2Proof.Machine

theorem exec_ldVxDt (x : Nibble) (s : State) : exec (.ldVxDt x) s = .next (s.setV x s.dt).advance := rfl

theorem exec_ldDtVx (x : Nibble) (s : State) : exec (.ldDtVx x) s = .next { s with dt := s.getV x }.advance := rfl

theorem exec_ldStVx (x : Nibble) (s : State) : exec (.ldStVx x) s = .next { s with st := s.getV x }.advance := rfl

/-! The tone. -/

theorem State.snd_iff_ne_zero (s : State) : s.snd = true ↔ s.st ≠ 0 := bne_iff_ne

theorem State.snd_iff_toNat_pos (s : State) : s.snd = true ↔ 0 < s.st.toNat := by
  rw [State.snd_iff_ne_zero, ne_eq, ← BitVec.toNat_inj]
  exact Nat.pos_iff_ne_zero.symm

/-- Each Tick takes one from the sound timer while it is not 0, and leaves the block not Faulted for the next. -/
theorem State.st_iterate_tick_toNat {s : State} (h : s.fault = none) (k : Nat) :
    (State.tick^[k] s).st.toNat = s.st.toNat - k := by
  induction k generalizing s with
  | zero => rfl
  | succ k ih =>
    have hfault : s.tick.fault = none := by rw [State.tick_of_unfaulted h]; exact h
    have hst : s.tick.st.toNat = s.st.toNat - 1 := by rw [State.tick_of_unfaulted h]; exact countDown_toNat s.st
    rw [Function.iterate_succ_apply, ih hfault, hst, Nat.sub_sub, Nat.add_comm]

theorem State.snd_iterate_tick_iff {s : State} (h : s.fault = none) (k : Nat) :
    (State.tick^[k] s).snd = true ↔ k < s.st.toNat := by
  rw [State.snd_iff_toNat_pos, State.st_iterate_tick_toNat h, Nat.sub_pos_iff_lt]

/-- Settles O34: each of the three moves one byte and advances, and the tone is on while fewer Ticks have come than the
byte stored counts. -/
theorem timerInstructionsMoveBytes : Obligations.TimerInstructionsMoveBytes := fun s x =>
  ⟨decodeWord_encode (i := .ldVxDt x) rfl, decodeWord_encode (i := .ldDtVx x) rfl,
    decodeWord_encode (i := .ldStVx x) rfl,
    ⟨_, exec_ldVxDt x s, s.setV_advance_eq x s.dt, fun r => s.getV_setV_advance x r s.dt⟩,
    (exec_ldDtVx x s).trans (congrArg _ (State.advance_eq _)),
    ⟨_, exec_ldStVx x s, State.advance_eq _, State.snd_iff_ne_zero _,
      State.snd_iterate_tick_iff (s := { s with st := s.getV x }.advance)⟩⟩

end Sys2Proof.Machine
end

section
/-! PROOFS. The index register, and the stores and loads of the memory instructions (47_index_memory.md R170 to R174). -/

namespace Sys2Proof.Machine

/-! The index register. -/

theorem exec_addI (x : Nibble) (s : State) : exec (.addI x) s = .next { s with i := s.indexPlus x }.advance := rfl

theorem exec_ldF (x : Nibble) (s : State) : exec (.ldF x) s = .next { s with i := glyphAddress (s.getV x) }.advance :=
  rfl

/-- The index arithmetic as claims write it. -/
theorem State.indexPlus_eq (s : State) (x : Nibble) :
    s.indexPlus x = BitVec.ofNat 12 ((s.i.toNat + (s.getV x).toNat) % 4096) := by
  apply BitVec.eq_of_toNat_eq
  simp [State.indexPlus, zext12]

theorem glyphAddress_eq (b : Byte) : glyphAddress b = BitVec.ofNat 12 (5 * (b.toNat % 16)) :=
  congrArg (BitVec.ofNat 12) (Nat.zero_add _)

/-- Settles O35: the sum is taken in 12 bits, and no register is written. -/
theorem addToIndexWraps : Obligations.AddToIndexWraps := by
  intro s x
  rw [exec_addI, State.indexPlus_eq, State.advance_eq]
  rfl

/-- Settles O36: the font starts at address 0, so the glyph's address is its offset in the font. -/
theorem glyphAddressIsFiveTimesDigit : Obligations.GlyphAddressIsFiveTimesDigit := by
  intro s x
  refine ⟨decodeWord_encode (i := .ldF x) rfl, ?_⟩
  rw [exec_ldF, glyphAddress_eq, State.advance_eq]
  rfl

/-! The decimal digits. -/

/-- The bytes of `LD B, Vx` as numbers: each digit fits in a byte. -/
theorem State.bcdByte_toNat (s : State) (x : Nibble) (a : Nat) : (s.bcdByte x a).toNat =
    if a = s.i.toNat then (s.getV x).toNat / 100
    else if a = s.i.toNat + 1 then (s.getV x).toNat / 10 % 10
    else if a = s.i.toNat + 2 then (s.getV x).toNat % 10
    else (s.byte a).toNat := by
  have hdigit : ∀ d < 256, (BitVec.ofNat 8 d).toNat = d := fun _ => Nat.mod_eq_of_lt
  rw [State.bcdByte, apply_ite BitVec.toNat, apply_ite BitVec.toNat, apply_ite BitVec.toNat, hdigit _ (by omega),
    hdigit _ (by omega), hdigit _ (by omega)]

/-- Settles O37: the three stores are the bytes of `State.bcdByte`, and each of them is a digit. -/
theorem bcdStoresThreeDigits : Obligations.BcdStoresThreeDigits := fun s x hm hi =>
  ⟨_, exec_ldB_inside hi, State.advance_eq _,
    fun a => (congrArg BitVec.toNat (State.byte_setByte_eq_bcdByte hm hi a)).trans (s.bcdByte_toNat x a)⟩

/-! Register dump and load. -/

theorem exec_load_inside {s : State} {x : Nibble} (h : s.i.toNat + x.toNat ≤ 0xFFF) :
    exec (.load x) s = .next ((s.loadFrom (s.dataAddress 0) (x.toNat + 1)).bumpIndex x).advance :=
  State.guardRange_inside _ h

/-- How a dump and a load end: `I` goes past the last address, modulo 4096. -/
theorem State.bumpIndex_advance_eq (s : State) (x : Nibble) : (s.bumpIndex x).advance =
    { s with i := BitVec.ofNat 12 ((s.i.toNat + x.toNat + 1) % 4096), pc := s.pcPlus 2 } := by
  have hi : s.i + x.setWidth 12 + 1 = BitVec.ofNat 12 ((s.i.toNat + x.toNat + 1) % 4096) := by bv_omega
  rw [State.advance_eq, ← hi]
  rfl

theorem State.dumpedByte_register (s : State) {x k : Nibble} (hk : k.toNat ≤ x.toNat) :
    s.dumpedByte x (s.i.toNat + k.toNat) = s.getV k := by
  rw [State.dumpedByte, if_pos (by omega), Nat.add_sub_cancel_left, BitVec.ofNat_toNat, BitVec.setWidth_eq]

theorem State.dumpedByte_outside (s : State) {x : Nibble} {a : Nat} (ha : a < s.i.toNat ∨ a > s.i.toNat + x.toNat) :
    s.dumpedByte x a = s.byte a := if_neg (by omega)

/-- The registers after a load from `I`. -/
theorem State.getV_loadFrom_index (s : State) (x k : Nibble) :
    (s.loadFrom s.i.toNat (x.toNat + 1)).getV k =
      if k.toNat ≤ x.toNat then s.byte (s.i.toNat + k.toNat) else s.getV k :=
  (s.getV_loadFrom _ x.isLt k).trans (if_congr Nat.lt_succ_iff rfl rfl)

/-- Settles O38: the bytes stored are those of `State.dumpedByte`, and beside memory only `I` and `PC` change. -/
theorem dumpStoresRegisters : Obligations.DumpStoresRegisters := by
  intro s x hm hi
  have hbyte := State.byte_dumpTo_eq_dumpedByte hm hi
  refine ⟨_, exec_dump_inside hi, ?_, fun k hk => (hbyte _).trans (s.dumpedByte_register hk),
    fun a ha => (hbyte a).trans (s.dumpedByte_outside ha)⟩
  rw [State.bumpIndex_advance_eq, State.dumpTo_eq]
  rfl

/-- Settles O39: the registers loaded are those up to `X`, and beside the registers only `I` and `PC` change. -/
theorem loadFillsRegisters : Obligations.LoadFillsRegisters := by
  intro s x hi
  refine ⟨_, exec_load_inside hi, ?_, s.getV_loadFrom_index x⟩
  rw [State.bumpIndex_advance_eq, State.loadFrom_eq]
  rfl

/-- Settles O41: the load reads at `I + k` the byte that the dump stored there, which is `V[k]`. -/
theorem dumpThenLoadReproduces : Obligations.DumpThenLoadReproduces := by
  intro s x hm hi
  obtain ⟨t, ht, -, hstored, -⟩ := dumpStoresRegisters s x hm hi
  refine ⟨t, ht, fun w hmem hindex => ?_⟩
  obtain ⟨u, hu, -, hloaded⟩ := loadFillsRegisters w x (hindex.symm ▸ hi)
  refine ⟨u, hu, fun k hk => ?_⟩
  calc u.getV k = w.byte (w.i.toNat + k.toNat) := (hloaded k).trans (if_pos hk)
    _ = t.byte (s.i.toNat + k.toNat) := by rw [State.byte, State.byte, hmem, hindex]
    _ = s.getV k := hstored k hk

end Sys2Proof.Machine
end

section
/-! PROOFS. The host's events from any state (50_host_interface.md R180 to R188): Reset, Tick, the key events, and the
order of events in one clock. -/

namespace Sys2Proof.Machine

/-! Reset (10_state.md R26). -/

theorem State.resetWith_fault (s : State) (image : List Byte) :
    (s.resetWith image).fault = if image.length > Config.maxImage then some .loadError else none := by
  by_cases h : image.length > Config.maxImage
  · rw [s.resetWith_long h, if_pos h]
    rfl
  · rw [s.resetWith_short (by omega), if_neg h]
    rfl

/-- Settles O49: what Reset leaves after an over-long image is the reset state with the host's random port and the
cause. -/
theorem longImageIsRejected : Obligations.LongImageIsRejected := fun s _ h => s.resetWith_long h

/-! The events of a Faulted block (60_exceptions.md R211). -/

theorem State.tick_of_faulted {s : State} (h : s.fault ≠ none) : s.tick = s := if_pos (Option.isSome_iff_ne_none.2 h)

theorem State.keyPress_of_faulted {s : State} (h : s.fault ≠ none) (k : Nibble) : s.keyPress k = s :=
  if_pos (Option.isSome_iff_ne_none.2 h)

theorem State.keyRelease_of_faulted {s : State} (h : s.fault ≠ none) (k : Nibble) : s.keyRelease k = s :=
  if_pos (Option.isSome_iff_ne_none.2 h)

/-- Settles O47: a Faulted block is not Running, so the Step is gated, and the other events but Reset look at the fault
register first. -/
theorem faultedIsFrozenUntilReset : Obligations.FaultedIsFrozenUntilReset := fun s h =>
  have hr : ¬ s.Running := fun hr => h hr.1
  ⟨step_of_not_running hr, stepWith_of_not_running hr, State.tick_of_faulted h,
    fun k => ⟨State.keyPress_of_faulted h k, State.keyRelease_of_faulted h k⟩, s.resetWith_fault⟩

/-! The Tick (50_host_interface.md R183). -/

/-- Settles O44: each timer is counted down once. -/
theorem tickCountsTimersDown : Obligations.TickCountsTimersDown := by
  intro s h
  rw [State.tick_of_unfaulted h]
  exact ⟨rfl, countDown_toNat s.dt, countDown_toNat s.st⟩

/-! The key events (50_host_interface.md R184, R185). -/

theorem State.keyRelease_of_unfaulted {s : State} (h : s.fault = none) (k : Nibble) :
    s.keyRelease k = (s.setKey k false).resolveLatch k := by
  simp [State.keyRelease, h]

theorem State.resolveLatch_of_waiting {s : State} {r : Nibble} (h : s.wait = some r) (k : Nibble) :
    s.resolveLatch k = { s.setV r (k.setWidth 8) with wait := none } := by
  simp only [State.resolveLatch, h]

theorem State.resolveLatch_of_not_waiting {s : State} (h : s.wait = none) (k : Nibble) : s.resolveLatch k = s := by
  simp only [State.resolveLatch, h]

/-- Only the registers and the latch change, and no register waits afterwards. -/
theorem State.resolveLatch_eq (s : State) (k : Nibble) :
    s.resolveLatch k = { s with v := (s.resolveLatch k).v, wait := none } := by
  cases hw : s.wait with
  | some r => rw [State.resolveLatch_of_waiting hw]; rfl
  | none => rw [State.resolveLatch_of_not_waiting hw, ← hw]

theorem State.getV_resolveLatch (s : State) (k r : Nibble) :
    (s.resolveLatch k).getV r = if s.wait = some r then k.setWidth 8 else s.getV r := by
  cases hw : s.wait with
  | some q =>
    rw [State.resolveLatch_of_waiting hw]
    exact (s.getV_setV q r _).trans (if_congr Option.some_inj.symm rfl rfl)
  | none => rw [State.resolveLatch_of_not_waiting hw, if_neg (by simp)]

theorem State.keyRelease_eq {s : State} (h : s.fault = none) (k : Nibble) : s.keyRelease k =
    { s with key := (s.setKey k false).key, v := (s.keyRelease k).v, wait := none } := by
  rw [State.keyRelease_of_unfaulted h, State.resolveLatch_eq]
  rfl

theorem State.getV_keyRelease {s : State} (h : s.fault = none) (k r : Nibble) :
    (s.keyRelease k).getV r = if s.wait = some r then k.setWidth 8 else s.getV r := by
  rw [State.keyRelease_of_unfaulted h]
  exact State.getV_resolveLatch _ k r

theorem State.getKey_keyPress {s : State} (h : s.fault = none) (k j : Nibble) :
    (s.keyPress k).getKey j = if j = k then true else s.getKey j := by
  rw [State.keyPress_of_unfaulted h, State.getKey_setKey, if_congr eq_comm rfl rfl]

theorem State.getKey_keyRelease {s : State} (h : s.fault = none) (k j : Nibble) :
    (s.keyRelease k).getKey j = if j = k then false else s.getKey j := by
  rw [State.keyRelease_eq h]
  exact (s.getKey_setKey k j false).trans (if_congr eq_comm rfl rfl)

/-- A pad index as the byte that the latched register receives. -/
theorem nibble_setWidth_toNat (k : Nibble) : (k.setWidth 8 : Byte).toNat = k.toNat :=
  BitVec.toNat_setWidth_of_le (by decide)

/-- Settles O45: one key is written, and a release resolves the latch if one is pending. -/
theorem keyEventsUpdateKeysAndLatch : Obligations.KeyEventsUpdateKeysAndLatch := by
  intro s k h
  refine ⟨⟨?_, State.getKey_keyPress h k⟩, ?_, State.getKey_keyRelease h k, fun r => ?_⟩
  · rw [State.keyPress_of_unfaulted h]
    rfl
  · rw [State.keyRelease_eq h]
  · rw [State.getV_keyRelease h, apply_ite BitVec.toNat, nibble_setWidth_toNat]

/-! The invariant under the host's events (10_state.md R15, R17, R24). -/

theorem State.tick_inv {s : State} (h : s.Inv) : s.tick.Inv := by
  by_cases hf : s.fault = none
  · rw [State.tick_of_unfaulted hf]
    exact h
  · rwa [State.tick_of_faulted hf]

theorem State.keyPress_inv {s : State} (h : s.Inv) (k : Nibble) : (s.keyPress k).Inv := by
  by_cases hf : s.fault = none
  · rw [State.keyPress_of_unfaulted hf]
    exact h
  · rwa [State.keyPress_of_faulted hf]

theorem State.keyRelease_inv {s : State} (h : s.Inv) (k : Nibble) : (s.keyRelease k).Inv := by
  by_cases hf : s.fault = none
  · obtain ⟨hm, -, hst⟩ := h
    rw [State.keyRelease_eq hf]
    exact ⟨hm, fun _ => rfl, hst⟩
  · rwa [State.keyRelease_of_faulted hf]

/-- A refused request changes nothing, and an accepted one is a Step of a state that differs in the random port
alone. -/
theorem stepWith_inv {s t : State} {r : Option Byte} (hs : s.Inv) (h : stepWith r s = .next t) : t.Inv := by
  by_cases hr : s.Running
  · rw [stepWith_running hr] at h
    exact stepKeepsInvariant (s.present r) t hs h
  · rw [stepWith_of_not_running hr] at h
    exact Host.Outcome.next.inj h ▸ hs

/-- Settles O55: event by event; Reset establishes the invariant whatever the state was. -/
theorem eventsKeepInvariant : Obligations.EventsKeepInvariant := by
  intro e s t hs h
  cases e with
  | reset image => exact Host.Outcome.next.inj h ▸ invariantHoldsAtReset.2 s image
  | step r => exact stepWith_inv hs h
  | tick => exact Host.Outcome.next.inj h ▸ State.tick_inv hs
  | keyPress k => exact Host.Outcome.next.inj h ▸ State.keyPress_inv hs k
  | keyRelease k => exact Host.Outcome.next.inj h ▸ State.keyRelease_inv hs k

end Sys2Proof.Machine
end

section
/-! PROOFS. The order of events in one clock (50_host_interface.md R188). -/

namespace Sys2Proof.Machine

theorem State.keyEvent_of_faulted {s : State} (h : s.fault ≠ none) (e : Option (Bool × Nibble)) : s.keyEvent e = s := by
  rcases e with _ | ⟨_ | _, k⟩
  · rfl
  · exact State.keyRelease_of_faulted h k
  · exact State.keyPress_of_faulted h k

@[simp] theorem State.tick_fault (s : State) : s.tick.fault = s.fault := by
  unfold State.tick
  split <;> rfl

@[simp] theorem State.tick_wait (s : State) : s.tick.wait = s.wait := by
  unfold State.tick
  split <;> rfl

theorem State.tick_setKey (s : State) (k : Nibble) (b : Bool) : s.tick.setKey k b = (s.setKey k b).tick :=
  apply_ite (State.setKey · k b) (s.fault.isSome = true) _ _

/-- Resolving the latch reads no timer, and a Tick neither the latch nor the registers. -/
theorem State.tick_resolveLatch (s : State) (k : Nibble) : s.tick.resolveLatch k = (s.resolveLatch k).tick := by
  cases hw : s.wait with
  | some r =>
    rw [State.resolveLatch_of_waiting hw, State.resolveLatch_of_waiting (s.tick_wait.trans hw)]
    exact apply_ite (fun t : State => { t.setV r (k.setWidth 8) with wait := none }) (s.fault.isSome = true) _ _
  | none =>
    rw [State.resolveLatch_of_not_waiting hw, State.resolveLatch_of_not_waiting (s.tick_wait.trans hw)]

/-- The Tick and the key event of a clock come in either order (R188). -/
theorem State.tick_keyEvent (s : State) (e : Option (Bool × Nibble)) : s.tick.keyEvent e = (s.keyEvent e).tick := by
  by_cases h : s.fault = none
  · have ht : s.tick.fault = none := s.tick_fault.trans h
    rcases e with _ | ⟨_ | _, k⟩
    · rfl
    · simp only [State.keyEvent, State.keyRelease_of_unfaulted h, State.keyRelease_of_unfaulted ht, State.tick_setKey,
        State.tick_resolveLatch]
    · simp only [State.keyEvent, State.keyPress_of_unfaulted h, State.keyPress_of_unfaulted ht, State.tick_setKey]
  · rw [State.tick_of_faulted h, State.keyEvent_of_faulted h, State.tick_of_faulted h]

/-- A clock whose Step answers `t`: the Tick and the key event come to `t`. -/
theorem clockCycle_of_stepWith {r : Option Byte} {s t : State} (h : stepWith r s = .next t) (tick : Bool)
    (e : Option (Bool × Nibble)) :
    clockCycle ⟨true, r, tick, e⟩ s = .next ((if tick then t.tick else t).keyEvent e) := by
  simp only [clockCycle, if_true, h, Result.andThen]

theorem clockCycle_keyEvent_of_stepWith {r : Option Byte} {s t : State} (h : stepWith r s = .next t)
    (e : Option (Bool × Nibble)) : clockCycle ⟨true, r, false, e⟩ s = .next (t.keyEvent e) :=
  clockCycle_of_stepWith h false e

/-- A Step that faults suppresses the rest of the clock (R188). -/
theorem clockCycle_of_stepWith_faulted {r : Option Byte} {s t : State} (h : stepWith r s = .next t)
    (hf : t.fault ≠ none) (tick : Bool) (e : Option (Bool × Nibble)) : clockCycle ⟨true, r, tick, e⟩ s = .next t := by
  rw [clockCycle_of_stepWith h, State.tick_of_faulted hf, ite_self, State.keyEvent_of_faulted hf]

theorem step_at_top {s : State} (hr : s.Running) (hp : s.pc = 0xFFF) : step s = .next (s.raise .fetchRange) := by
  rw [step, State.mode_running hr, State.fetch_top hp]

/-- Settles O6: the fetch is out of range before memory is read. -/
theorem fetchAboveMemoryFaults : Obligations.FetchAboveMemoryFaults := fun _ hr hp => step_at_top hr hp

theorem stepWith_at_top {s : State} (hr : s.Running) (hp : s.pc = 0xFFF) (r : Option Byte) :
    stepWith r s = .next ((s.present r).raise .fetchRange) := by
  rw [stepWith_running hr, step_at_top (s := s.present r) hr hp]

/-- A Step request that is accepted and fetches: the instruction at `PC` runs with the random input at the port. -/
theorem stepWith_of_decode {s : State} {i : Instr} (hr : s.Running) (hp : s.pc ≠ 0xFFF)
    (hi : decodeWord (s.wordAt s.pc.toNat) = i) (r : Option Byte) : stepWith r s = exec i (s.present r) := by
  rw [stepWith_running hr, step_of_running (s := s.present r) hr hp]
  exact congrArg (exec · (s.present r)) hi

theorem clockCycle_ldVxDt {s : State} {x : Nibble} (hr : s.Running) (hp : s.pc ≠ 0xFFF)
    (hi : decodeWord (s.wordAt s.pc.toNat) = .ldVxDt x) (r : Option Byte) :
    ∃ u, clockCycle ⟨true, r, true, none⟩ s = .next u ∧ u.getV x = s.dt ∧ u.dt.toNat = s.dt.toNat - 1 := by
  refine ⟨_, clockCycle_of_stepWith ((stepWith_of_decode hr hp hi r).trans (exec_ldVxDt x _)) true none, ?_⟩
  have ht := State.tick_of_unfaulted (s := ((s.present r).setV x (s.present r).dt).advance) hr.1
  rw [if_pos rfl, ht]
  exact ⟨State.getV_setV_self (s.present r) x s.dt, countDown_toNat s.dt⟩

theorem State.keyEvent_pc (s : State) (e : Option (Bool × Nibble)) : (s.keyEvent e).pc = s.pc := by
  by_cases h : s.fault = none
  · rcases e with _ | ⟨_ | _, k⟩
    · rfl
    · rw [State.keyEvent, State.keyRelease_eq h]
    · rw [State.keyEvent, State.keyPress_of_unfaulted h, State.setKey_pc]
  · rw [State.keyEvent_of_faulted h]

theorem State.getKey_keyEvent {s : State} (h : s.fault = none) (down : Bool) (k : Nibble) :
    (s.keyEvent (some (down, k))).getKey k = down := by
  cases down with
  | false => exact (State.getKey_keyRelease h k k).trans (if_pos rfl)
  | true => exact (State.getKey_keyPress h k k).trans (if_pos rfl)

theorem clockCycle_skp {s : State} {x k : Nibble} (hr : s.Running) (hp : s.pc ≠ 0xFFF)
    (hi : decodeWord (s.wordAt s.pc.toNat) = .skp x) (hk : (s.getV x).toNat = k.toNat) (r : Option Byte) (down : Bool) :
    ∃ u, clockCycle ⟨true, r, false, some (down, k)⟩ s = .next u ∧
      u.pc = s.pcPlus (if s.getKey k then 4 else 2) ∧ u.getKey k = down := by
  have hstep := (stepWith_of_decode hr hp hi r).trans (keySkipsTestKeyState (s.present r) x k hk).1
  refine ⟨_, clockCycle_keyEvent_of_stepWith hstep (some (down, k)), State.keyEvent_pc _ _,
    State.getKey_keyEvent ?_ down k⟩
  exact hr.1

theorem clockCycle_ldVxK {s : State} {x : Nibble} (hr : s.Running) (hp : s.pc ≠ 0xFFF)
    (hi : decodeWord (s.wordAt s.pc.toNat) = .ldVxK x) (r : Option Byte) (k : Nibble) :
    ∃ u, clockCycle ⟨true, r, false, some (false, k)⟩ s = .next u ∧ u.wait = none ∧ (u.getV x).toNat = k.toNat := by
  have hstep := (stepWith_of_decode hr hp hi r).trans (exec_ldVxK x _)
  obtain ⟨-, -, -, -, -, hrelease, -⟩ :=
    waitLiftedOnlyByReleaseOrReset { s.present r with wait := some x }.advance x hr.1 rfl
  obtain ⟨hwait, -, hv⟩ := hrelease k
  exact ⟨_, clockCycle_keyEvent_of_stepWith hstep (some (false, k)), hwait, hv⟩

/-- Settles O51: the order is that of `clockCycle`, and each consequence is the Step's own result seen through the
events after it. -/
theorem sameClockOrder : Obligations.SameClockOrder := fun _ r =>
  ⟨fun _ => rfl, fun t e h => ⟨clockCycle_of_stepWith h true e, t.tick_keyEvent e⟩,
    fun _ tick e h hf => clockCycle_of_stepWith_faulted h hf tick e,
    fun hr hp tick e => ⟨_, clockCycle_of_stepWith_faulted (stepWith_at_top hr hp r) nofun tick e, rfl⟩,
    fun hr hp _ => ⟨fun hi => clockCycle_ldVxDt hr hp hi r, fun hi _ down hk => clockCycle_skp hr hp hi hk r down,
      fun hi k => clockCycle_ldVxK hr hp hi r k⟩⟩

end Sys2Proof.Machine
end

section
/-! PROOFS. The outputs (50_host_interface.md R187). -/

namespace Sys2Proof.Machine

theorem State.fbBit_eq_pixel (s : State) (x : Fin 64) (y : Fin 32) :
    s.fbBit (BitVec.ofNat 11 (64 * y.val + x.val)) = s.pixel x y := by
  have haddr : (BitVec.ofNat 11 (64 * y.val + x.val)).toNat = 64 * y.val + x.val := Nat.mod_eq_of_lt (by omega)
  have hx : (64 * y.val + x.val) % 64 = x.val := by omega
  have hy : (64 * y.val + x.val) / 64 = y.val := by omega
  rw [State.fbBit, haddr, hx, hy]
  rfl

theorem Fault.code_ne_zero (c : Fault) : c.code ≠ 0 := by
  cases c <;> decide

theorem State.faultCause_eq_zero_iff (s : State) : s.faultCause = 0 ↔ s.fault = none := by
  unfold State.faultCause
  cases s.fault with
  | none => exact iff_of_true rfl rfl
  | some c => exact iff_of_false c.code_ne_zero nofun

/-- The code shown is that of the cause recorded (60_exceptions.md R201). -/
theorem State.faultCause_eq_code_iff (s : State) (c : Fault) : s.faultCause = c.code ↔ s.fault = some c := by
  unfold State.faultCause
  cases s.fault with
  | none => exact iff_of_false c.code_ne_zero.symm nofun
  | some d => exact ⟨fun h => congrArg some (Fault.code_injective h), fun h => congrArg Fault.code (Option.some.inj h)⟩

/-- Settles O52: a read address is split into its column and row, and distinct causes have distinct codes. -/
theorem outputsShowTheState : Obligations.OutputsShowTheState := fun s =>
  ⟨s.fbBit_eq_pixel, s.snd_iff_ne_zero, Option.isSome_iff_ne_none, fun _ h => congrArg (Option.getD · 0) h,
    fun h => congrArg (Option.getD · 0) h, Option.isSome_iff_ne_none, s.faultCause_eq_zero_iff,
    s.faultCause_eq_code_iff .fetchRange, s.faultCause_eq_code_iff .memRange, s.faultCause_eq_code_iff .stackOverflow,
    s.faultCause_eq_code_iff .stackUnderflow, s.faultCause_eq_code_iff .keyIndex, s.faultCause_eq_code_iff .entropy,
    s.faultCause_eq_code_iff .loadError, rfl⟩

end Sys2Proof.Machine
end

section
/-! PROOFS. When instructions fault (60_exceptions.md R201 to R210). -/

namespace Sys2Proof.Machine

theorem State.RaisesOn.unique_of_iff {s : State} {i : Instr} {c d e : Fault} {p : Prop}
    (hon : ∀ f, s.RaisesOn i f ↔ f = e ∧ p) (hc : s.RaisesOn i c) (hd : s.RaisesOn i d) : c = d :=
  ((hon c).1 hc).1.trans ((hon d).1 hd).1.symm

/-- An instruction has at most one cause due. -/
theorem State.RaisesOn.unique {s : State} {i : Instr} {c d : Fault} (hc : s.RaisesOn i c) (hd : s.RaisesOn i d) :
    c = d := by
  cases i with
  | ret => exact unique_of_iff s.raisesOn_ret hc hd
  | call nnn => exact unique_of_iff (s.raisesOn_call nnn) hc hd
  | rnd x nn => exact unique_of_iff (s.raisesOn_rnd x nn) hc hd
  | drw x y n => exact unique_of_iff (s.raisesOn_drw x y n) hc hd
  | ldB x => exact unique_of_iff (s.raisesOn_ldB x) hc hd
  | dump x => exact unique_of_iff (s.raisesOn_dump x) hc hd
  | load x => exact unique_of_iff (s.raisesOn_load x) hc hd
  | skp x => exact unique_of_iff (s.raisesOn_skp x) hc hd
  | sknp x => exact unique_of_iff (s.raisesOn_sknp x) hc hd
  | _ => exact hc.elim

/-- A cause that is due is the one raised. -/
theorem exec_of_raisesOn {s : State} {i : Instr} {c : Fault} (h : s.RaisesOn i c) : exec i s = .next (s.raise c) := by
  rcases exec_ends i s with ⟨d, hd, he⟩ | ⟨hno, -⟩
  · rw [he, hd.unique h]
  · exact absurd h (hno c)

/-- An instruction that leaves a cause in a clear fault register has raised it. -/
theorem raise_of_exec_fault {s t : State} {i : Instr} {c : Fault} (hs : s.fault = none) (h : exec i s = .next t)
    (ht : t.fault = some c) : s.RaisesOn i c ∧ t = s.raise c := by
  rcases exec_cases h with ⟨d, hd, rfl⟩ | ⟨-, hc⟩
  · obtain rfl : d = c := Option.some.inj ht
    exact ⟨hd, rfl⟩
  · rw [hc.fault, hs] at ht
    cases ht

/-- Settles O57: a cause due is raised, and a cause recorded was due. -/
theorem faultsExactlyOnTheirConditions : Obligations.FaultsExactlyOnTheirConditions := by
  intro i s c hs
  refine ⟨⟨?_, fun h => ⟨_, exec_of_raisesOn h, rfl⟩⟩, fun t h ht => (raise_of_exec_fault hs h ht).2⟩
  rintro ⟨t, h, ht⟩
  exact (raise_of_exec_fault hs h ht).1

/-- Settles O15: either condition makes its cause due. -/
theorem stackFaultsAreTaken : Obligations.StackFaultsAreTaken :=
  ⟨fun s nnn h => exec_of_raisesOn ((s.raisesOn_call nnn _).2 ⟨rfl, h⟩),
    fun s h => exec_of_raisesOn ((s.raisesOn_ret _).2 ⟨rfl, h⟩)⟩

/-- Settles O32: either condition makes its cause due. -/
theorem inputFaultsAreTaken : Obligations.InputFaultsAreTaken := fun s x nn =>
  ⟨fun h => ⟨exec_of_raisesOn ((s.raisesOn_skp x _).2 ⟨rfl, h⟩), exec_of_raisesOn ((s.raisesOn_sknp x _).2 ⟨rfl, h⟩)⟩,
    fun h => exec_of_raisesOn ((s.raisesOn_rnd x nn _).2 ⟨rfl, h⟩)⟩

/-- Settles O40: a last data address past 0xFFF makes MEM_RANGE due. -/
theorem memoryRangeFaultsAreTaken : Obligations.MemoryRangeFaultsAreTaken := fun s x y n =>
  ⟨fun hn h => exec_of_raisesOn (i := .drw x y n) (c := .memRange) ⟨hn, h⟩,
    fun h => exec_of_raisesOn ((s.raisesOn_ldB x _).2 ⟨rfl, h⟩),
    fun h => ⟨exec_of_raisesOn ((s.raisesOn_dump x _).2 ⟨rfl, h⟩), exec_of_raisesOn ((s.raisesOn_load x _).2 ⟨rfl, h⟩)⟩⟩

end Sys2Proof.Machine
end

section
/-! PROOFS. The control flow instructions SYS, RET and JP V0, and a call that returns (40_flow.md R81 to R85). -/

namespace Sys2Proof.Machine

theorem exec_sys (nnn : Addr) (s : State) : exec (.sys nnn) s = s.noOperation := rfl

/-- Settles O9: the meaning is the shared no-operation. -/
theorem sysOnlyAdvances : Obligations.SysOnlyAdvances := fun s nnn => (exec_sys nnn s).trans s.noOperation_eq

theorem exec_jpV0 (nnn : Addr) (s : State) : exec (.jpV0 nnn) s = .next (s.jump (s.offsetTarget nnn)) := rfl

/-- The target as claims write it. -/
theorem State.offsetTarget_eq (s : State) (nnn : Addr) :
    s.offsetTarget nnn = BitVec.ofNat 12 ((nnn.toNat + (s.getV 0).toNat) % 4096) := by
  apply BitVec.eq_of_toNat_eq
  simp [State.offsetTarget, zext12]

/-- Settles O12: the sum is taken in 12 bits, and only `PC` changes. -/
theorem jumpByOffsetWraps : Obligations.JumpByOffsetWraps := by
  intro s nnn
  rw [exec_jpV0, State.offsetTarget_eq]
  rfl

theorem exec_ret_of_ne_zero {s : State} (h : s.sp ≠ 0) :
    exec .ret s = .next { s.jump (s.getStack s.sp) with sp := s.sp - 1 } := if_neg h

/-- Settles O14: above 0 the stack pointer does not wrap. -/
theorem returnPopsAddress : Obligations.ReturnPopsAddress := by
  intro s h
  have hsp : s.sp - 1 = BitVec.ofNat 4 (s.sp.toNat - 1) := by bv_omega
  rw [exec_ret_of_ne_zero h, hsp]
  rfl

/-- Settles O16: `RET` finds on top what `CALL` has just pushed there. -/
theorem callThenReturnComesBack : Obligations.CallThenReturnComesBack := by
  intro s nnn h
  obtain ⟨t, ht, hframe, hsp, hstack⟩ := callPushesReturnAddress s nnn h
  have hpos : t.sp ≠ 0 := fun h0 => by rw [h0] at hsp; exact absurd hsp (by simp)
  have htop : t.getStack t.sp = s.pcPlus 2 := (hstack t.sp).trans (if_pos hsp)
  have hback : BitVec.ofNat 4 (t.sp.toNat - 1) = s.sp := by
    rw [hsp, Nat.add_sub_cancel, BitVec.ofNat_toNat, BitVec.setWidth_eq]
  refine ⟨t, _, ht, returnPopsAddress t hpos, ?_, fun k hk => (hstack k).trans (if_neg hk)⟩
  rw [htop, hback, hframe]

end Sys2Proof.Machine
end

section
/-! PROOFS. The collision flag of `DRW` (44_display.md R143). -/

namespace Sys2Proof.Machine

theorem State.getV_withSprite_flag (s : State) (x y n : Nibble) :
    (s.withSprite x y n).getV 0xF = flagByte (s.spriteCanvas x y n).2 := State.getV_setV_self _ vfIndex _

/-- Settles O29: the flag is the canvas's collision as a byte. -/
theorem spriteSetsCollisionFlag : Obligations.SpriteSetsCollisionFlag := by
  intro s x y n h
  refine ⟨_, exec_drw_inside h x y, (s.getV_withSprite_flag_eq_one_iff x y n).2, fun hno => ?_⟩
  have hmiss : (s.spriteCanvas x y n).2 = false := Bool.eq_false_iff.2 (mt (s.spriteCanvas_hit x y n).1 hno)
  rw [State.getV_withSprite_flag, hmiss]
  rfl

end Sys2Proof.Machine
end

section
/-! PROOFS. The states that no Step changes (70_reset_and_hazards.md R233). -/

namespace Sys2Proof.Machine

theorem State.raise_ne {s : State} (h : s.fault = none) (c : Fault) : s.raise c ≠ s := fun he =>
  absurd ((congrArg State.fault he).trans h) nofun

theorem addr_add_two_ne (a : Addr) : a + 2 ≠ a := by bv_omega

theorem addr_add_four_ne (a : Addr) : a + 4 ≠ a := by bv_omega

/-- A completion that changes nothing is a jump to itself: every other moves `PC` or, for `CALL` and `RET`, `SP`. -/
theorem Completes.selfJump {s t : State} {i : Instr} (h : Completes s i t) (ht : t = s) : s.selfJump i = true := by
  have hpc : t.pc = s.pc := congrArg State.pc ht
  have hsp : t.sp = s.sp := congrArg State.sp ht
  cases h with
  | jp | jpV0 => exact beq_iff_eq.2 hpc
  | ret => exact absurd hsp (show s.sp - 1 ≠ s.sp by bv_omega)
  | call => exact absurd hsp (show s.sp + 1 ≠ s.sp by bv_omega)
  | skip _ c =>
    cases c with
    | false => exact absurd hpc (addr_add_two_ne s.pc)
    | true => exact absurd hpc (addr_add_four_ne s.pc)
  | dump =>
    rw [State.dumpTo_eq] at hpc
    exact absurd hpc (addr_add_two_ne s.pc)
  | load =>
    rw [State.loadFrom_eq] at hpc
    exact absurd hpc (addr_add_two_ne s.pc)
  | _ => exact absurd hpc (addr_add_two_ne s.pc)

theorem selfJump_of_exec_self {s : State} {i : Instr} (hs : s.fault = none) (h : exec i s = .next s) :
    s.selfJump i = true := by
  rcases exec_cases h with ⟨c, -, hc⟩ | ⟨-, hc⟩
  · exact absurd hc.symm (State.raise_ne hs c)
  · exact hc.selfJump rfl

theorem State.jump_pc_self (s : State) : s.jump s.pc = s := rfl

theorem exec_of_selfJump {s : State} {i : Instr} (h : s.selfJump i = true) : exec i s = .next s := by
  cases i with
  | jp nnn => rw [exec_jp, beq_iff_eq.1 h, State.jump_pc_self]
  | jpV0 nnn => rw [exec_jpV0, beq_iff_eq.1 h, State.jump_pc_self]
  | _ => exact absurd h Bool.false_ne_true

/-- Settles O56: a Step of a Running block leaves the state as it is only through an instruction that does. -/
theorem quiescentStatesAreThese : Obligations.QuiescentStatesAreThese := by
  intro s
  constructor
  · intro h
    rcases step_cases s with ⟨hr, -⟩ | ⟨hr, -, he⟩ | ⟨hr, hp, he⟩
    · exact (not_and_or.1 hr).imp_right .inl
    · exact absurd (Host.Outcome.next.inj (he.symm.trans h)) (State.raise_ne hr.1 _)
    · exact .inr (.inr ⟨hr, hp, selfJump_of_exec_self hr.1 (he.symm.trans h)⟩)
  · rintro (hf | hw | ⟨hr, hp, hj⟩)
    · exact step_of_not_running fun hr => hf hr.1
    · exact step_of_not_running fun hr => hw hr.2
    · exact (step_of_running hr hp).trans (exec_of_selfJump hj)

end Sys2Proof.Machine
end
